-- ==== Sys2Proof/Word.lean ====
section
/-! DEFINITION. The word types of the core: bytes, the 9-bit program counter, register indices (00_scope.md section 5). -/

namespace Sys2Proof

/-- `u8`: a memory cell, a register, an opcode byte or an operand byte (00_scope.md R3). -/
abbrev Byte := BitVec 8

/-- `u9`: the program counter, wide enough for 0..255 and the value 256 (10_state.md R10). -/
abbrev PcWord := BitVec 9

/-- The number of a general register, 0..7 (10_state.md R7). -/
abbrev RegIdx := Fin 8

end Sys2Proof
end

