-- ==== Sys2Proof/Syntax.lean ====
section
/-! DEFINITION. The instructions of the opcode map, one constructor per row (30_encoding.md R42), and the rows' own shape. -/

namespace Sys2Proof

/-- The fourteen instruction kinds, in the source's order (00_scope.md R2). -/
inductive Op where
  | printConst | halt | ldi | prn | add | mul | cmp | push | pop | call | ret | jmp | jeq | jne
deriving DecidableEq, Repr

/-- The four instruction formats (30_encoding.md R38). -/
inductive Format where
  /-- opcode only -/
  | Z
  /-- one register operand -/
  | R
  /-- two register operands -/
  | RR
  /-- a register operand and an immediate byte -/
  | RI
deriving DecidableEq, Repr

/-- One row of the opcode map (30_encoding.md R42): the source's instruction descriptor with the opcode byte it stands for. -/
structure OpcodeRow where
  op : Op
  byte : Byte
  operands : Nat
  aluFlag : Bool
  setPcFlag : Bool
  format : Format
deriving DecidableEq, Repr

/-- An instruction. An operand is its whole operand byte (30_encoding.md R38, R39): a register operand of 8 or more is an
instruction the step rejects with `RegisterOutOfRange` (R50), so the byte is kept as encoded (log 13). -/
inductive Instr where
  /-- PRINT_CONST (40_basic.md R55) -/
  | printConst
  /-- HALT (R56) -/
  | halt
  /-- LDI Ra, imm (R57) -/
  | ldi (a imm : Byte)
  /-- PRN Ra (R58) -/
  | prn (a : Byte)
  /-- ADD Ra, Rb (41_alu.md R60) -/
  | add (a b : Byte)
  /-- MUL Ra, Rb (R61) -/
  | mul (a b : Byte)
  /-- CMP Ra, Rb (R62) -/
  | cmp (a b : Byte)
  /-- PUSH Ra (42_stack.md R64) -/
  | push (a : Byte)
  /-- POP Ra (R65) -/
  | pop (a : Byte)
  /-- CALL Ra (43_control.md R68) -/
  | call (a : Byte)
  /-- RET (R69) -/
  | ret
  /-- JMP Ra (R70) -/
  | jmp (a : Byte)
  /-- JEQ Ra (R71) -/
  | jeq (a : Byte)
  /-- JNE Ra (R72) -/
  | jne (a : Byte)
deriving DecidableEq, Repr

end Sys2Proof
end

