-- ==== Sys2Proof/WellFormed.lean ====
section
/-! DEFINITION. Well-formed instructions: every register operand names one of the eight registers (30_encoding.md R39). -/

namespace Sys2Proof

/-- A byte that names a register: 0..7, never reduced or masked (R39). -/
def isRegOperand (v : Byte) : Bool := decide (v.toNat < 8)

/-- The register operands of an instruction in the order R50 checks them, `a` before `b`; LDI's immediate is none. -/
def Instr.regOperands : Instr → List Byte
  | .printConst => []
  | .halt => []
  | .ldi a _ => [a]
  | .prn a => [a]
  | .add a b => [a, b]
  | .mul a b => [a, b]
  | .cmp a b => [a, b]
  | .push a => [a]
  | .pop a => [a]
  | .call a => [a]
  | .ret => []
  | .jmp a => [a]
  | .jeq a => [a]
  | .jne a => [a]

/-- The instruction passes the register checks of R50. -/
def Instr.wellFormed (i : Instr) : Bool := i.regOperands.all isRegOperand

end Sys2Proof
end

