-- ==== Sys2Proof/Decode.lean ====
section
/-! DEFINITION. The opcode map, the decoder from bytes, and the encoder (30_encoding.md sections 1 to 4). -/

namespace Sys2Proof

/-- The opcode map (30_encoding.md R42, the default of decision D1; log 1). -/
def opcodeMap : List OpcodeRow :=
  [ ⟨.printConst, 0x02#8, 0, false, false, .Z⟩,
    ⟨.halt,       0x01#8, 0, false, false, .Z⟩,
    ⟨.ldi,        0x82#8, 2, false, false, .RI⟩,
    ⟨.prn,        0x47#8, 1, false, false, .R⟩,
    ⟨.add,        0xA0#8, 2, true,  false, .RR⟩,
    ⟨.mul,        0xA2#8, 2, true,  false, .RR⟩,
    ⟨.cmp,        0xA7#8, 2, true,  false, .RR⟩ ] ++
  [ ⟨.push,       0x45#8, 1, false, false, .R⟩,
    ⟨.pop,        0x46#8, 1, false, false, .R⟩,
    ⟨.call,       0x50#8, 1, false, true,  .R⟩,
    ⟨.ret,        0x11#8, 0, false, true,  .Z⟩,
    ⟨.jmp,        0x54#8, 1, false, true,  .R⟩,
    ⟨.jeq,        0x55#8, 1, false, true,  .R⟩,
    ⟨.jne,        0x56#8, 1, false, true,  .R⟩ ]

/-- The row a whole opcode byte selects, none for an illegal opcode (R42, R43). -/
def lookupOpcode (c : Byte) : Option OpcodeRow := opcodeMap.find? (fun row => row.byte == c)

/-- Bits 7-6 of the opcode byte: how many operand bytes follow it (R36). -/
def operandCount (c : Byte) : Nat := c.toNat / 64

/-- The instruction of kind `op` with operand bytes `a` and `b`; an operand its format lacks is not read (R38). -/
def Op.withOperands (op : Op) (a b : Byte) : Instr :=
  match op with
  | .printConst => .printConst
  | .halt => .halt
  | .ldi => .ldi a b
  | .prn => .prn a
  | .add => .add a b
  | .mul => .mul a b
  | .cmp => .cmp a b
  | .push => .push a
  | .pop => .pop a
  | .call => .call a
  | .ret => .ret
  | .jmp => .jmp a
  | .jeq => .jeq a
  | .jne => .jne a

/-- Why bytes are not an instruction. -/
inductive DecodeError where
  /-- the opcode byte is none of the fourteen (R43, R48) -/
  | illegalOpcode (c : Byte)
  /-- the instruction needs a byte beyond the `available` ones (R47 when 0 are, R49 otherwise) -/
  | truncated (available : Nat)
deriving DecidableEq, Repr

/-- Decode one instruction from the front of a byte list and give the rest of the list. Legality is judged from the opcode
byte alone, before any operand byte is asked for (R44). -/
def decode : List Byte → Except DecodeError (Instr × List Byte)
  | [] => .error (.truncated 0)
  | c :: rest =>
    match lookupOpcode c with
    | none => .error (.illegalOpcode c)
    | some row =>
      if rest.length < operandCount c then .error (.truncated (1 + rest.length))
      else .ok (row.op.withOperands (rest.getD 0 0#8) (rest.getD 1 0#8), rest.drop (operandCount c))

/-- The kind of an instruction. -/
def Instr.op : Instr → Op
  | .printConst => .printConst
  | .halt => .halt
  | .ldi _ _ => .ldi
  | .prn _ => .prn
  | .add _ _ => .add
  | .mul _ _ => .mul
  | .cmp _ _ => .cmp
  | .push _ => .push
  | .pop _ => .pop
  | .call _ => .call
  | .ret => .ret
  | .jmp _ => .jmp
  | .jeq _ => .jeq
  | .jne _ => .jne

/-- The `bits` column of R42's table, written out a second time, from the bits: the encoder does not read the decoder's map. -/
def Op.opcode : Op → Byte
  | .printConst => 0b00000010#8
  | .halt => 0b00000001#8
  | .ldi => 0b10000010#8
  | .prn => 0b01000111#8
  | .add => 0b10100000#8
  | .mul => 0b10100010#8
  | .cmp => 0b10100111#8
  | .push => 0b01000101#8
  | .pop => 0b01000110#8
  | .call => 0b01010000#8
  | .ret => 0b00010001#8
  | .jmp => 0b01010100#8
  | .jeq => 0b01010101#8
  | .jne => 0b01010110#8

/-- The operand bytes of an instruction in memory order (R38). -/
def Instr.operands : Instr → List Byte
  | .printConst => []
  | .halt => []
  | .ldi a imm => [a, imm]
  | .prn a => [a]
  | .add a b => [a, b]
  | .mul a b => [a, b]
  | .cmp a b => [a, b]
  | .push a => [a]
  | .pop a => [a]
  | .call a => [a]
  | .ret => []
  | .jmp a => [a]
  | .jeq a => [a]
  | .jne a => [a]

/-- The bytes of an instruction, opcode first (R38). -/
def encode (i : Instr) : List Byte := i.op.opcode :: i.operands

/-- The length in bytes, `1 + opcode[7:6]` (R41). -/
def Instr.length (i : Instr) : Nat := 1 + operandCount i.op.opcode

/-- The three bytes of an instruction numbered as spec/opcode_table.json numbers its bits, the first byte in bits 7..0, with
every bit from `nbits` up zero. -/
def tableWordBytes (nbits w : Nat) : List Byte :=
  [BitVec.ofNat 8 (w % 2 ^ nbits), BitVec.ofNat 8 (w % 2 ^ nbits / 2 ^ 8), BitVec.ofNat 8 (w % 2 ^ nbits / 2 ^ 16)]

/-- The instruction the decoder reads from a table word. -/
def decodeTableWord (nbits w : Nat) : Option Instr :=
  match decode (tableWordBytes nbits w) with
  | .ok (i, _) => some i
  | .error _ => none

end Sys2Proof
end

