-- ==== Sys2Proof/Config.lean ====
section
/-! DEFINITION. What the core fixes (00_scope.md R3), its open parameters (R5), and the free values. -/

namespace Sys2Proof.Config

/-- `MEM_SIZE` (R3). -/
abbrev memSize : Nat := 256

/-- `SP_INDEX` (R3): register 7 is the stack pointer (10_state.md R9). -/
abbrev spIndex : RegIdx := 7

/-- `SP_RESET` (R3). -/
abbrev spReset : Byte := 0xF4#8

/-- What a cell nothing has written reads as: every cell is 0 after reset (20_memory.md R21). -/
abbrev unlistedByte : Byte := 0#8

/-- Open parameter `PRINT_CONST_TEXT` (00_scope.md R5, log 16): the text the host writes for a PrintConst event. No body:
every claim holds for every text. -/
opaque printConstText : String

/-- Open parameter `PRINT_TERMINATOR` (00_scope.md R5, log 16): the text the host writes after each rendered event. -/
opaque printTerminator : String

/-- Free values (log 3): the contents of an operand latch the current instruction does not use, `any value` in
93_implementation_defined.md section 1. Applied to the counter `draws` of State, which every committed instruction advances. -/
opaque freeLatch : Nat → Byte

end Sys2Proof.Config
end

