-- ==== Sys2Proof/Machine/State.lean ====
section
/-! DEFINITION. The state of the core (10_state.md, 20_memory.md R21), the errors it holds, the port events, and reset. -/

namespace Sys2Proof.Machine

/-- The five error kinds with their info fields (60_exceptions.md R73). -/
inductive MachineError where
  /-- the byte at `pc` is outside the opcode map (30_encoding.md R48) -/
  | illegalInstruction (opcode : Byte) (pc : PcWord)
  /-- an address outside 0..255; an integer, since a push from SP = 0 forms -1 (decision D31) -/
  | addressOutOfRange (address : Int)
  /-- a register operand of 8 or more (30_encoding.md R50) -/
  | registerOutOfRange (index : Byte)
  /-- a load of more than 256 bytes (20_memory.md R31) -/
  | programTooLarge (size : Nat)
  /-- kept in the type and never raised (60_exceptions.md R74); `name` is the instruction, named by its kind -/
  | unsupportedAluOp (name : Op)
deriving DecidableEq, Repr

/-- An event of the output port (60_exceptions.md R81). -/
inductive OutputEvent where
  | printConst
  | printReg (v : Byte)
deriving DecidableEq, Repr

/-- What the trace port is called with (60_exceptions.md R84). -/
structure Snapshot where
  /-- the address of the executed instruction's opcode byte -/
  pc : PcWord
  opcode : Byte
  /-- exactly the instruction's operand bytes -/
  operands : List Byte
  /-- the registers after the instruction committed -/
  regs : Vector Byte 8
deriving DecidableEq, Repr

/-- The 256 cells as (address, byte) pairs: addresses strictly rising and below 256, no byte equal to what an unlisted address
reads as (`Memory.wf`, in Machine/Ops.lean). -/
abbrev Memory := List Host.Cell

/-- The whole state of the core. -/
structure State where
  /-- `x[0]`..`x[7]`, x[7] being SP (R7, R9) -/
  regs : Vector Byte 8
  /-- the program counter (R10) -/
  pc : PcWord
  /-- `FL.E`, the equal flag (R13) -/
  flE : Bool
  /-- `HALTED` (R14) -/
  halted : Bool
  /-- `ERR`, the error latch (R15) -/
  err : Option MachineError
  /-- the instruction register `IR` (R17) -/
  ir : Byte
  /-- the operand latch `OPA` (R17) -/
  opa : Byte
  /-- the operand latch `OPB` (R17) -/
  opb : Byte
  /-- the 256-byte memory (20_memory.md R21) -/
  mem : Memory
  /-- the events the output port has carried since reset, oldest first (R81, R82; log 6) -/
  output : List OutputEvent
  /-- the snapshots the trace port has been called with since reset, oldest first (R83, R84; log 7) -/
  trace : List Snapshot
  /-- the model's own counter: how many free latch values have been drawn (log 3) -/
  draws : Nat
deriving DecidableEq, Repr

/-- Reasons for the machine to stop with a fault. There are none: every error of the spec is a next state with `HALTED` and
`ERR` set (R75; log 2, log 17), and the spec describes no other stop. Raised by nobody; safe. -/
inductive Fault
deriving DecidableEq, Repr

/-- Reasons for the model to give no meaning. -/
inductive Refusal where
  /-- An instruction of the opcode table without a meaning. Raised by no arm of `exec`: all fourteen have one. Safe. -/
  | notModelled (mnemonic : String)
  /-- A load on a core that is not in its reset state: "A load at any other time has no meaning in this spec, and a model
  refuses it" (20_memory.md R32). Raised by the load port alone, never by a step. Safe. -/
  | loadOutsideReset
deriving DecidableEq, Repr

/-- The state after reset (10_state.md R20, 70_reset_and_hazards.md R90). The three last fields are the model's choice
(logs 6, 7 and 3). -/
def State.reset : State where
  regs := (Vector.replicate 8 0#8).set 7 Config.spReset
  pc := 0#9
  flE := false
  halted := false
  err := none
  ir := 0#8
  opa := 0#8
  opb := 0#8
  mem := []
  output := []
  trace := []
  draws := 0

end Sys2Proof.Machine
end

