-- ==== Sys2Proof/Machine/Ops.lean ====
section
/-! DEFINITION. The shared operations: memory cells, registers, address checks, taking an error, committing an instruction. -/

namespace Sys2Proof.Machine

/-! ### Memory (20_memory.md) -/

/-- `m` is canonical and all its addresses are `lo` or above. -/
def Memory.wfFrom : Nat → Memory → Bool
  | _, [] => true
  | lo, (c, w) :: rest =>
    decide (lo ≤ c) && decide (c < Config.memSize) && decide (w ≠ Config.unlistedByte) && Memory.wfFrom (c + 1) rest

/-- The canonical form: addresses strictly rising, inside 0..255, and no cell listed that reads the same unlisted. -/
def Memory.wf (m : Memory) : Bool := Memory.wfFrom 0 m

/-- The byte listed at an address, or what an unlisted address reads as (R21). -/
def Memory.cell : Memory → Nat → Byte
  | [], _ => Config.unlistedByte
  | (c, w) :: rest, a => if a = c then w else Memory.cell rest a

/-- Replace the byte at an address, keeping the canonical form. -/
def Memory.setCell : Memory → Nat → Byte → Memory
  | [], a, v => if v = Config.unlistedByte then [] else [(a, v)]
  | (c, w) :: rest, a, v =>
    if a < c then
      if v = Config.unlistedByte then (c, w) :: rest else (a, v) :: (c, w) :: rest
    else if a = c then
      if v = Config.unlistedByte then rest else (a, v) :: rest
    else (c, w) :: Memory.setCell rest a v

/-- `MemRead(a, 1)` (R22); an address of type `Byte` is in range. -/
def Memory.read (m : Memory) (a : Byte) : Byte := m.cell a.toNat

/-- `MemWrite(a, 1, v)` (R22). -/
def Memory.write (m : Memory) (a v : Byte) : Memory := m.setCell a.toNat v

/-- Write bytes to consecutive cells from address `a` (R30); bytes that would land past cell 255 are not written. -/
def Memory.writeBytes : Memory → Nat → List Byte → Memory
  | m, _, [] => m
  | m, a, v :: vs =>
    if a < Config.memSize then Memory.writeBytes (m.write (BitVec.ofNat 8 a) v) (a + 1) vs else m

/-- The `k` bytes from address `a` on, fewer where the memory ends first. -/
def Memory.bytesFrom (m : Memory) : Nat → Nat → List Byte
  | _, 0 => []
  | a, k + 1 =>
    if a < Config.memSize then m.read (BitVec.ofNat 8 a) :: Memory.bytesFrom m (a + 1) k else []

/-! ### Registers and control state (10_state.md) -/

/-- `x[r]` (R7). -/
def State.reg (s : State) (r : RegIdx) : Byte := s.regs[r.val]

/-- `x[r] <- v` (R7, R8). -/
def State.setReg (s : State) (r : RegIdx) (v : Byte) : State := { s with regs := s.regs.set r.val v }

/-- `SP`, another name for `x[7]` (R9). -/
def State.sp (s : State) : Byte := s.reg Config.spIndex

/-- `SP <- v` (R9). -/
def State.setSp (s : State) (v : Byte) : State := s.setReg Config.spIndex v

/-- `pc <- v`. -/
def State.setPc (s : State) (v : PcWord) : State := { s with pc := v }

/-- `MemWrite(a, 1, v)` on the core's memory. -/
def State.store (s : State) (a v : Byte) : State := { s with mem := s.mem.write a v }

/-- `HALTED <- 1` (R14). -/
def State.setHalted (s : State) : State := { s with halted := true }

/-- `emit(ev)` (60_exceptions.md R81). -/
def State.emit (s : State) (ev : OutputEvent) : State := { s with output := s.output ++ [ev] }

/-! ### Errors (60_exceptions.md) -/

/-- The code of an error kind (R73). -/
def MachineError.code : MachineError → Nat
  | .illegalInstruction _ _ => 1
  | .addressOutOfRange _ => 2
  | .registerOutOfRange _ => 3
  | .programTooLarge _ => 4
  | .unsupportedAluOp _ => 5

/-- Taking error `e` in the state before the failing instruction or load (R75): its writes are discarded, `HALTED <- 1`,
`ERR <- e`, and everything else, `pc` included, stays. There is no return from an error (R78): only reset leaves this state. -/
def takeError (e : MachineError) (s : State) : State := { s with halted := true, err := some e }

/-- Check an address before it is used (20_memory.md R23): outside 0..255 raises `AddressOutOfRange` with that address. -/
def withAddress {α : Type} (a : Int) (k : Byte → Except MachineError α) : Except MachineError α :=
  if 0 ≤ a ∧ a < (Config.memSize : Int) then k (BitVec.ofNat 8 a.toNat) else .error (.addressOutOfRange a)

/-! ### Ending an instruction (30_encoding.md R53) -/

/-- The snapshot of instruction `i` run from state `s` to the committed state `t` (60_exceptions.md R84). -/
def snapshot (i : Instr) (s t : State) : Snapshot :=
  { pc := s.pc, opcode := i.op.opcode, operands := i.operands, regs := t.regs }

/-- Commit the working copy `t` of instruction `i` begun in state `s` (30_encoding.md R53): the latches hold the instruction's
bytes, those it does not use a free value (10_state.md R17; log 3, log 5), and the trace port is called once (R83). -/
def commit (i : Instr) (s t : State) : State :=
  { t with
    ir := i.op.opcode
    opa := i.operands[0]?.getD (Config.freeLatch s.draws)
    opb := i.operands[1]?.getD (Config.freeLatch (s.draws + 1))
    draws := s.draws + 2
    trace := s.trace ++ [snapshot i s t] }

/-- End instruction `i` begun in state `s`: commit its working copy, or take the error it raised (R53, R75). -/
def finish (i : Instr) (s : State) (r : Except MachineError State) : Host.Outcome State Fault Refusal :=
  match r with
  | .ok t => .next (commit i s t)
  | .error e => .next (takeError e s)

end Sys2Proof.Machine
end

