-- ==== Sys2Proof/Machine/Flags.lean ====
section
/-! DEFINITION. The one flag computation of the core: the equal flag (10_state.md R13, 41_alu.md R62). -/

namespace Sys2Proof.Machine

/-- `FL.E` after comparing two whole 8-bit values (41_alu.md R62). -/
def equalFlag (x y : Byte) : Bool := decide (x = y)

/-- `FL.E <- e`. -/
def State.setE (s : State) (e : Bool) : State := { s with flE := e }

end Sys2Proof.Machine
end

