-- ==== Sys2Proof/Machine/Operands.lean ====
section
/-! DEFINITION. The operand forms: register operands, the advance of pc, jump targets, and the stack pointer's two modes. -/

namespace Sys2Proof.Machine

/-- The operand byte that names register `r` (30_encoding.md R39). -/
def regByte (r : RegIdx) : Byte := BitVec.ofNat 8 r.val

/-- Check a register operand byte and go on with the register it names: 8 or more raises `RegisterOutOfRange`, and the byte is
never masked (30_encoding.md R39, R50). -/
def withReg {α : Type} (v : Byte) (k : RegIdx → Except MachineError α) : Except MachineError α :=
  if h : v.toNat < 8 then k ⟨v.toNat, h⟩ else .error (.registerOutOfRange v)

/-- `pc <- pc + 1 + n` (30_encoding.md R52). -/
def State.advance (s : State) (i : Instr) : State := s.setPc (s.pc + BitVec.ofNat 9 i.length)

/-- `pc <- zext_9(target)` (43_control.md R66). -/
def State.jump (s : State) (target : Byte) : State := s.setPc (target.setWidth 9)

/-- The address a push stores to, `SP - 1`, as an integer: it may be -1 (42_stack.md R63, R64). -/
def State.pushAddress (s : State) : Int := (s.sp.toNat : Int) - 1

/-- SP after a pop, `SP + 1`, as an integer: it may be 256 (42_stack.md R63, R65). -/
def State.poppedSp (s : State) : Int := (s.sp.toNat : Int) + 1

/-- Pre-decrement of SP for a push: no wrap, -1 raises (42_stack.md R63). -/
def withPushedSp {α : Type} (s : State) (k : State → Except MachineError α) : Except MachineError α :=
  withAddress s.pushAddress fun a => k (s.setSp a)

/-- Post-increment of SP for a pop: no wrap, 256 raises (42_stack.md R63). -/
def withPoppedSp {α : Type} (s : State) (k : State → Except MachineError α) : Except MachineError α :=
  withAddress s.poppedSp fun a => k (s.setSp a)

/-- `MemRead(x[7], 1)`: the byte SP points at. -/
def State.top (s : State) : Byte := s.mem.read s.sp

end Sys2Proof.Machine
end

