-- ==== Sys2Proof/Machine/Alu.lean ====
section
/-! DEFINITION. ADD, MUL and CMP (41_alu.md). -/

namespace Sys2Proof.Machine

/-- The sum modulo 256 (R59, R60). -/
def addBytes (va vb : Byte) : Byte := va + vb

/-- The partial sum of the shift-and-add product over bits `0..n-1` of `vb`, every partial sum reduced to 8 bits (R61). -/
def shiftAdd (va vb : Byte) : Nat → Byte
  | 0 => 0#8
  | i + 1 => if vb.getLsbD i then shiftAdd va vb i + (va <<< i) else shiftAdd va vb i

/-- The product of R61's loop, `i` from 0 to 7. -/
def mulBytes (va vb : Byte) : Byte := shiftAdd va vb 8

/-- ADD (R60). -/
def execAdd (a b : Byte) (s : State) : Host.Outcome State Fault Refusal :=
  finish (.add a b) s (withReg a fun ra => withReg b fun rb =>
    .ok ((s.setReg ra (addBytes (s.reg ra) (s.reg rb))).advance (.add a b)))

/-- MUL (R61). -/
def execMul (a b : Byte) (s : State) : Host.Outcome State Fault Refusal :=
  finish (.mul a b) s (withReg a fun ra => withReg b fun rb =>
    .ok ((s.setReg ra (mulBytes (s.reg ra) (s.reg rb))).advance (.mul a b)))

/-- CMP (R62). -/
def execCmp (a b : Byte) (s : State) : Host.Outcome State Fault Refusal :=
  finish (.cmp a b) s (withReg a fun ra => withReg b fun rb =>
    .ok ((s.setE (equalFlag (s.reg ra) (s.reg rb))).advance (.cmp a b)))

end Sys2Proof.Machine
end

