-- ==== Sys2Proof/Machine/Basic.lean ====
section
/-! DEFINITION. PRINT_CONST, HALT, LDI and PRN (40_basic.md). -/

namespace Sys2Proof.Machine

/-- PRINT_CONST emits one PrintConst event (R55). -/
def execPrintConst (s : State) : Host.Outcome State Fault Refusal :=
  finish .printConst s (.ok ((s.emit .printConst).advance .printConst))

/-- HALT sets `HALTED` and advances (R56). -/
def execHalt (s : State) : Host.Outcome State Fault Refusal :=
  finish .halt s (.ok (s.setHalted.advance .halt))

/-- LDI writes the immediate byte, unchanged, to register `a` (R57, 30_encoding.md R40). -/
def execLdi (a imm : Byte) (s : State) : Host.Outcome State Fault Refusal :=
  finish (.ldi a imm) s (withReg a fun ra => .ok ((s.setReg ra imm).advance (.ldi a imm)))

/-- PRN emits the value of register `a` (R58). -/
def execPrn (a : Byte) (s : State) : Host.Outcome State Fault Refusal :=
  finish (.prn a) s (withReg a fun ra => .ok ((s.emit (.printReg (s.reg ra))).advance (.prn a)))

end Sys2Proof.Machine
end

