-- ==== Sys2Proof/Machine/Control.lean ====
section
/-! DEFINITION. CALL, RET, JMP, JEQ and JNE (43_control.md). -/

namespace Sys2Proof.Machine

/-- CALL: the return address, the address after the CALL, must fit a byte, then SP is decremented and checked, the return
address is stored, and the target is read after the SP write (R68; 90_conflicts.md C2). -/
def execCall (a : Byte) (s : State) : Host.Outcome State Fault Refusal :=
  finish (.call a) s (withReg a fun ra =>
    withAddress ((s.pc.toNat : Int) + (Instr.call a).length) fun ret => withPushedSp s fun s1 =>
      .ok ((s1.store s1.sp ret).jump (s1.reg ra)))

/-- RET pops the top byte into `pc` (R69). -/
def execRet (s : State) : Host.Outcome State Fault Refusal :=
  finish .ret s (withPoppedSp s fun s1 => .ok (s1.jump s.top))

/-- JMP (R70). -/
def execJmp (a : Byte) (s : State) : Host.Outcome State Fault Refusal :=
  finish (.jmp a) s (withReg a fun ra => .ok (s.jump (s.reg ra)))

/-- JEQ jumps when `FL.E` is 1 (R71). -/
def execJeq (a : Byte) (s : State) : Host.Outcome State Fault Refusal :=
  finish (.jeq a) s (withReg a fun ra => .ok (if s.flE then s.jump (s.reg ra) else s.advance (.jeq a)))

/-- JNE jumps when `FL.E` is 0 (R72). -/
def execJne (a : Byte) (s : State) : Host.Outcome State Fault Refusal :=
  finish (.jne a) s (withReg a fun ra => .ok (if s.flE then s.advance (.jne a) else s.jump (s.reg ra)))

end Sys2Proof.Machine
end

