-- ==== Sys2Proof/Machine/Stack.lean ====
section
/-! DEFINITION. PUSH and POP (42_stack.md). Each statement reads what the one before it wrote, so register 7 as the operand
follows the source's order (90_conflicts.md C5). -/

namespace Sys2Proof.Machine

/-- PUSH: SP is decremented, then the register is read and stored where SP points (R64). -/
def execPush (a : Byte) (s : State) : Host.Outcome State Fault Refusal :=
  finish (.push a) s (withReg a fun ra => withPushedSp s fun s1 =>
    .ok ((s1.store s1.sp (s1.reg ra)).advance (.push a)))

/-- POP: the register takes the byte SP points at, then SP, read after that write, is incremented (R65). -/
def execPop (a : Byte) (s : State) : Host.Outcome State Fault Refusal :=
  finish (.pop a) s (withReg a fun ra => withPoppedSp (s.setReg ra s.top) fun s1 =>
    .ok (s1.advance (.pop a)))

end Sys2Proof.Machine
end

