-- ==== Sys2Proof/Machine/Fetch.lean ====
section
/-! DEFINITION. Fetching an instruction's bytes and the errors of the fetch (30_encoding.md R47 to R49). -/

namespace Sys2Proof.Machine

/-- The bytes an instruction at `pc` may have: at `pc`, `pc + 1` and `pc + 2`, those past cell 255 missing. Reading a cell has
no effect (20_memory.md R29), so bytes the instruction turns out not to have cost nothing. -/
def State.fetchWindow (s : State) : List Byte := s.mem.bytesFrom s.pc.toNat 3

/-- The error a failed decode raises: the opcode byte is out of range (R47) or illegal (R48), or an operand byte is out of
range (R49); the missing byte's address is `pc` plus the number of bytes there were. -/
def fetchError (pc : PcWord) : DecodeError → MachineError
  | .illegalOpcode c => .illegalInstruction c pc
  | .truncated available => .addressOutOfRange ((pc.toNat : Int) + available)

/-- Fetch and decode the instruction at `pc`. -/
def fetch (s : State) : Except MachineError Instr :=
  match decode s.fetchWindow with
  | .ok (i, _) => .ok i
  | .error e => .error (fetchError s.pc e)

/-- The state with an instruction's three table bytes stored where the next step fetches; bytes past cell 255 are left out. -/
def State.placeWord (s : State) (nbits w : Nat) : State :=
  { s with mem := s.mem.writeBytes s.pc.toNat (tableWordBytes nbits w) }

end Sys2Proof.Machine
end

