-- ==== Sys2Proof/Machine/Step.lean ====
section
/-! DEFINITION. The step port (30_encoding.md section 6). -/

namespace Sys2Proof.Machine

/-- One call of the step port: nothing on a halted core (R46), else fetch (R47 to R49) and run the instruction (R50 to R53);
an error of the fetch is taken as R75 says. -/
def step (s : State) : Host.Outcome State Fault Refusal :=
  if s.halted then .next s
  else
    match fetch s with
    | .ok i => exec i s
    | .error e => .next (takeError e s)

/-- The state in which the next step of a running core fetches the instruction of table word `w` (log 10). -/
def State.withFetchWord (s : State) (nbits w : Nat) : State := s.placeWord nbits w

end Sys2Proof.Machine
end

