-- ==== Sys2Proof/Machine/Ports.lean ====
section
/-! DEFINITION. The host's other interfaces: reset, load, run, status, and the rendering of output events
(00_scope.md section 6). -/

namespace Sys2Proof.Machine

/-- The reset port: accepted between any two steps, it replaces all state (70_reset_and_hazards.md R90). -/
def resetPort (_ : State) : State := State.reset

/-- The load port. It is defined only on a core in its reset state (20_memory.md R32; log 9); at most 256 bytes are written from
address 0 (R30), more are a fatal error that writes none (R31). -/
def load (bytes : List Byte) (s : State) : Host.Outcome State Fault Refusal :=
  if s = State.reset then
    if bytes.length ≤ Config.memSize then .next { s with mem := s.mem.writeBytes 0 bytes }
    else .next (takeError (.programTooLarge bytes.length) s)
  else .refused .loadOutsideReset

/-- What the load port returns to its caller for an accepted load that left state `after`: none is ok (20_memory.md R30), else
the error it raised (R31, 60_exceptions.md R75), which `ERR` holds; an accepted load began with none there (log 15). -/
def loadReturns (after : State) : Option MachineError := after.err

/-- What the step port returns to its caller for a step from `before` to `after`: none is ok. A step on a halted core returns ok
(30_encoding.md R46); else an error is the one the step latched (10_state.md R15; log 15). -/
def stepReturns (before after : State) : Option MachineError := if before.halted then none else after.err

/-- How a call of the run port stands after some fuel (30_encoding.md R54). -/
inductive RunResult where
  /-- run returned ok: a HALT executed, or the core was halted when run was called -/
  | ok (s : State)
  /-- run returned the error a step raised -/
  | error (e : MachineError) (s : State)
  /-- the fuel is used up and run has not returned -/
  | notFinished (s : State)
  /-- a step of the model had no meaning; no step does this -/
  | refused (r : Refusal)
deriving DecidableEq, Repr

/-- The run port with fuel: it steps while `HALTED` is 0 (30_encoding.md R54). -/
def run : Nat → State → RunResult
  | 0, s => if s.halted then .ok s else .notFinished s
  | fuel + 1, s =>
    if s.halted then .ok s
    else
      match step s with
      | .next t =>
        match stepReturns s t with
        | some e => .error e t
        | none => run fuel t
      | .fault f => nomatch f
      | .refused r => .refused r

/-- The status port: `HALTED` and `ERR`, readable between steps (10_state.md R14, R15). -/
def status (s : State) : Bool × Option MachineError := (s.halted, s.err)

/-- The decimal digits of a byte without leading zeros, the most significant first (60_exceptions.md R82). -/
def decimalDigits (v : Byte) : List Nat :=
  if v.toNat < 10 then [v.toNat]
  else if v.toNat < 100 then [v.toNat / 10, v.toNat % 10]
  else [v.toNat / 100, v.toNat / 10 % 10, v.toNat % 10]

/-- The text of an output event (60_exceptions.md R82): the digits or `PRINT_CONST_TEXT`, then `PRINT_TERMINATOR`. -/
def render : OutputEvent → String
  | .printConst => Config.printConstText ++ Config.printTerminator
  | .printReg v => String.ofList ((decimalDigits v).map Nat.digitChar) ++ Config.printTerminator

/-- The text a host writes for a sequence of events, in order. -/
def renderAll (evs : List OutputEvent) : String := String.join (evs.map render)

end Sys2Proof.Machine
end

