-- ==== Sys2Proof/Safety.lean ====
section
/-! DEFINITION. What a sound state and a safe run are, and the words the claims are stated in. -/

namespace Sys2Proof.Machine

/-- The error values that occur (60_exceptions.md R73, R74). -/
def MachineError.occurs : MachineError → Bool
  | .illegalInstruction c pc => (lookupOpcode c).isNone && decide (pc.toNat ≤ 255)
  | .addressOutOfRange a => decide (a = -1) || decide (a = 256)
  | .registerOutOfRange v => decide (8 ≤ v.toNat)
  | .programTooLarge n => decide (257 ≤ n)
  | .unsupportedAluOp _ => false

/-- A snapshot the trace port can be called with: a legal opcode at an address of the memory, with as many operand bytes as
its bits 7-6 say (60_exceptions.md R84, 30_encoding.md R36). -/
def Snapshot.occurs (x : Snapshot) : Bool :=
  decide (x.pc.toNat ≤ 255) && (lookupOpcode x.opcode).isSome && decide (x.operands.length = operandCount x.opcode)

/-- The state invariant: what holds at reset and every step keeps. -/
structure State.Inv (s : State) : Prop where
  /-- `pc` holds 0 to 256 (10_state.md R11) -/
  pc_le : s.pc.toNat ≤ 256
  /-- the memory is in its canonical form: 256 cells, one value each -/
  mem_wf : s.mem.wf = true
  /-- a latched error has stopped the core (10_state.md R15) -/
  err_halted : s.err ≠ none → s.halted = true
  /-- only errors that occur are latched (60_exceptions.md R73) -/
  err_occurs : ∀ e, s.err = some e → e.occurs = true
  /-- only snapshots of legal instructions are traced (60_exceptions.md R84) -/
  trace_occurs : ∀ x, x ∈ s.trace → x.occurs = true

/-- The output event of the executed instruction a snapshot shows (60_exceptions.md R81). -/
def Snapshot.event (x : Snapshot) : Option OutputEvent :=
  if x.opcode = Op.printConst.opcode then some .printConst
  else if x.opcode = Op.prn.opcode then
    some (.printReg (x.regs.toList.getD ((x.operands.headD 0#8).toNat) 0#8))
  else none

/-- The output port has carried exactly the events of the executed instructions, in program order (60_exceptions.md R82). -/
def State.OutputMatchesTrace (s : State) : Prop := s.output = s.trace.filterMap Snapshot.event

/-- A state of a run that has not ended in an error (70_reset_and_hazards.md R93). -/
def State.Safe (s : State) : Prop := s.err = none

/-- A run ended normally: halted with no error (R93). -/
def State.EndedNormally (s : State) : Prop := s.halted = true ∧ s.err = none

/-! ### Frames -/

/-- Every cell reads the same. -/
def SameMemory (s t : State) : Prop := ∀ c : Byte, t.mem.read c = s.mem.read c

/-- Every register reads the same. -/
def SameRegs (s t : State) : Prop := ∀ r : RegIdx, t.reg r = s.reg r

/-- `HALTED` and `ERR` are unchanged. -/
def SameStatus (s t : State) : Prop := t.halted = s.halted ∧ t.err = s.err

/-- What committing instruction `i` from `s` leaves besides its own effect: the latches that it uses hold its bytes
(10_state.md R17), and the trace port was called once, with the registers of `t` (60_exceptions.md R83, R84). -/
def Committed (i : Instr) (s t : State) : Prop :=
  t.ir = i.op.opcode ∧
  (∀ v, i.operands[0]? = some v → t.opa = v) ∧
  (∀ v, i.operands[1]? = some v → t.opb = v) ∧
  t.trace = s.trace ++ [⟨s.pc, i.op.opcode, i.operands, t.regs⟩]

/-- The two states agree on everything an instruction may read: registers, `pc`, FL, memory, and the stop and error bits. -/
def SameArchitecture (s t : State) : Prop :=
  s.regs = t.regs ∧ s.pc = t.pc ∧ s.flE = t.flE ∧ s.halted = t.halted ∧ s.err = t.err ∧ s.mem = t.mem

/-- The memory holds the bytes `bs` from address `a` on, all inside 0..255. -/
def HoldsBytes (s : State) (a : Nat) (bs : List Byte) : Prop :=
  ∀ k v, bs[k]? = some v → a + k < 256 ∧ s.mem.read (BitVec.ofNat 8 (a + k)) = v

/-- A running core fetches instruction `i`: not halted, and the bytes at `pc` decode to it. -/
def Runs (s : State) (i : Instr) : Prop := s.halted = false ∧ ∃ rest, decode s.fetchWindow = .ok (i, rest)

end Sys2Proof.Machine
end

