-- ==== Sys2Proof/Certificates/Slice0/Obligations.lean ====
section
/-! DEFINITION. The statements for the provers. Every docstring names the rules of spec/ it comes from. -/

open Sys2Proof Sys2Proof.Machine

/-! ### Reset, invariants, totality -/

/-- Reset, from any state, gives every piece of state its value (10_state.md R20, 70_reset_and_hazards.md R90). -/
def Obligations.ResetGivesTheSpecifiedValues : Prop :=
  ∀ s : State, resetPort s = State.reset ∧
    State.reset.sp = 0xF4#8 ∧ (∀ r : RegIdx, r ≠ 7 → State.reset.reg r = 0#8) ∧
    State.reset.pc = 0#9 ∧ State.reset.flE = false ∧ State.reset.halted = false ∧ State.reset.err = none ∧
    State.reset.ir = 0#8 ∧ State.reset.opa = 0#8 ∧ State.reset.opb = 0#8 ∧
    ∀ c : Byte, State.reset.mem.read c = 0#8

/-- The invariant holds at reset. -/
def Obligations.ResetMeetsTheInvariant : Prop := State.reset.Inv

/-- Every step keeps the invariant: pc at most 256 (R11), memory canonical, an error has stopped the core (R15), only errors
that occur are latched (R73), only legal instructions are traced (R84). From every state that meets it. -/
def Obligations.StepKeepsTheInvariant : Prop :=
  ∀ s t : State, s.Inv → step s = .next t → t.Inv

/-- A load that is accepted leaves a state that meets the invariant, whether it succeeded or was too long. -/
def Obligations.LoadKeepsTheInvariant : Prop :=
  ∀ (bytes : List Byte) (s t : State), s.Inv → load bytes s = .next t → t.Inv

/-- The step port always has an answer: no step faults and none is refused (30_encoding.md section 6). -/
def Obligations.EveryStepAnswersANextState : Prop :=
  ∀ s : State, ∃ t, step s = .next t

/-! ### Encoding -/

/-- Decoding what the encoder wrote gives back the instruction and the bytes after it, for every instruction and every operand
byte, well-formed or not. -/
def Obligations.DecodeOfEncodeIsTheInstruction : Prop :=
  ∀ (i : Instr) (rest : List Byte), decode (encode i ++ rest) = .ok (i, rest)

/-- The other direction: the bytes a decode took are exactly the encoding of what it gave. -/
def Obligations.EncodeOfDecodeIsTheBytesRead : Prop :=
  ∀ (bs : List Byte) (i : Instr) (rest : List Byte), decode bs = .ok (i, rest) → bs = encode i ++ rest

/-- One word of each format, written out from R42's bits and R38's byte order, decodes to its instruction. -/
def Obligations.SpecEncodingsDecodeAsWritten : Prop :=
  decode [0b00010001#8] = .ok (.ret, []) ∧
  decode [0b01010110#8, 3#8] = .ok (.jne 3#8, []) ∧
  decode [0b10100111#8, 0#8, 2#8] = .ok (.cmp 0#8 2#8, []) ∧
  decode [0b10000010#8, 1#8, 37#8] = .ok (.ldi 1#8 37#8, []) ∧
  decode [0b01000101#8, 7#8, 9#8] = .ok (.push 7#8, [9#8])

/-! ### The instruction cycle -/

/-- A running core whose bytes at pc decode to instruction `i` runs exactly `i`; a halted one does not. -/
def Obligations.StepRunsTheDecodedInstruction : Prop :=
  ∀ (s : State) (i : Instr), Runs s i → step s = exec i s

/-- A running core whose memory holds an instruction's bytes from pc on runs that instruction (R38, R47, R48, R49). -/
def Obligations.StepRunsTheInstructionStoredAtPc : Prop :=
  ∀ (s : State) (i : Instr), s.halted = false → HoldsBytes s s.pc.toNat (encode i) → step s = exec i s

/-- A step on a halted core changes no state, emits nothing, is not traced and returns ok (R46). -/
def Obligations.HaltedStepChangesNothing : Prop :=
  ∀ s : State, s.halted = true → step s = .next s ∧ stepReturns s s = none

/-- An opcode fetch at pc 256 or above raises AddressOutOfRange with pc (R47).
That the error state keeps IR, OPA and OPB too is log 4 (DEDUCED), not a rule's words. -/
def Obligations.OpcodeFetchPastMemoryRaises : Prop :=
  ∀ s : State, s.halted = false → 256 ≤ s.pc.toNat →
    step s = .next (takeError (.addressOutOfRange s.pc.toNat) s)

/-- A byte outside the fourteen of R42 raises IllegalInstruction with that byte and pc, at every address 0..255, with no
look at the bytes after it (R43, R44); there are 242 of them.
That the error state keeps IR, OPA and OPB too is log 4 (DEDUCED), not a rule's words. -/
def Obligations.IllegalOpcodeRaisesBeforeOperandFetch : Prop :=
  (∀ s : State, s.halted = false → s.pc.toNat < 256 →
    s.mem.read (BitVec.ofNat 8 s.pc.toNat) ∉
      [0x02#8, 0x01#8, 0x82#8, 0x47#8, 0xA0#8, 0xA2#8, 0xA7#8, 0x45#8, 0x46#8, 0x50#8, 0x11#8, 0x54#8, 0x55#8, 0x56#8] →
    step s = .next (takeError (.illegalInstruction (s.mem.read (BitVec.ofNat 8 s.pc.toNat)) s.pc) s)) ∧
  ((List.range 256).filter fun n => (lookupOpcode (BitVec.ofNat 8 n)).isNone).length = 242

/-- A legal opcode whose operand bytes run past cell 255 raises AddressOutOfRange with the first address past it, 256, before
any register check (R49).
That the error state keeps IR, OPA and OPB too is log 4 (DEDUCED), not a rule's words. -/
def Obligations.OperandFetchPastMemoryRaises : Prop :=
  ∀ (s : State) (row : OpcodeRow), s.halted = false → s.pc.toNat < 256 →
    lookupOpcode (s.mem.read (BitVec.ofNat 8 s.pc.toNat)) = some row → 256 ≤ s.pc.toNat + row.operands →
    step s = .next (takeError (.addressOutOfRange 256) s)

/-- The first register operand, `a` before `b`, whose whole byte is 8 or more raises RegisterOutOfRange with that byte, and
nothing else of the instruction happens; LDI's immediate is never checked (R39, R50).
That the error state keeps IR, OPA and OPB too is log 4 (DEDUCED), not a rule's words. -/
def Obligations.RegisterOperandAboveSevenRaises : Prop :=
  ∀ (i : Instr) (s : State) (v : Byte), i.regOperands.find? (fun b => decide (8 ≤ b.toNat)) = some v →
    exec i s = .next (takeError (.registerOutOfRange v) s)

/-- A step of a running core either runs the one instruction it fetched, commits all that `exec` gives it, traces it once and
returns ok (R53, R83), or raises one error that occurs (R73) and returns it, and then registers, memory, pc and FL are as
before, with no output and no trace (R75). That IR, OPA and OPB are as before too is the model's reading, log 4 (DEDUCED, from
R6's working copy), and so is the counter of log 3; no rule lists them among what an error keeps. -/
def Obligations.StepCommitsOrTakesOneError : Prop :=
  ∀ s t : State, s.Inv → s.halted = false → step s = .next t →
    (∃ i, Runs s i ∧ exec i s = .next t ∧ Committed i s t ∧ t.err = none ∧ stepReturns s t = none) ∨
    (∃ e : MachineError, e.occurs = true ∧ t = { s with halted := true, err := some e } ∧ stepReturns s t = some e)

/-- A snapshot the step delivers shows the address and the very bytes the step fetched, as many as the opcode says, and the
registers after it (R84); IR holds the same opcode byte (R17). -/
def Obligations.TraceSnapshotShowsTheFetchedBytes : Prop :=
  ∀ (s t : State) (x : Snapshot), step s = .next t → t.trace = s.trace ++ [x] →
    x.pc = s.pc ∧ HoldsBytes s s.pc.toNat (x.opcode :: x.operands) ∧
    x.operands.length = operandCount x.opcode ∧ x.regs = t.regs ∧ t.ir = x.opcode

/-! ### The instructions: result, frame and completion -/

/-- PRINT_CONST (R55). -/
def Obligations.PrintConstEmitsItsEvent : Prop :=
  ∀ s : State, ∃ t, exec .printConst s = .next t ∧ t.output = s.output ++ [.printConst] ∧ t.pc = s.pc + 1#9 ∧
    SameRegs s t ∧ SameMemory s t ∧ t.flE = s.flE ∧ SameStatus s t ∧ Committed .printConst s t

/-- HALT (R56): it stops the core, which executes nothing more; ERR stays; the instruction is traced, and its step returns ok. -/
def Obligations.HaltStopsTheCore : Prop :=
  ∀ s : State, ∃ t, exec .halt s = .next t ∧ t.halted = true ∧ t.err = s.err ∧ t.pc = s.pc + 1#9 ∧
    SameRegs s t ∧ SameMemory s t ∧ t.flE = s.flE ∧ t.output = s.output ∧ Committed .halt s t ∧
    step t = .next t ∧ (s.err = none → stepReturns s t = none)

/-- LDI (R57): any immediate byte, any register, R7 being SP. -/
def Obligations.LdiWritesTheImmediate : Prop :=
  ∀ (s : State) (ra : RegIdx) (imm : Byte), ∃ t, exec (.ldi (regByte ra) imm) s = .next t ∧
    t.reg ra = imm ∧ (∀ r, r ≠ ra → t.reg r = s.reg r) ∧ t.pc = s.pc + 3#9 ∧
    SameMemory s t ∧ t.flE = s.flE ∧ SameStatus s t ∧ t.output = s.output ∧ Committed (.ldi (regByte ra) imm) s t

/-- PRN (R58). -/
def Obligations.PrnEmitsTheRegister : Prop :=
  ∀ (s : State) (ra : RegIdx), ∃ t, exec (.prn (regByte ra)) s = .next t ∧
    t.output = s.output ++ [.printReg (s.reg ra)] ∧ t.pc = s.pc + 2#9 ∧
    SameRegs s t ∧ SameMemory s t ∧ t.flE = s.flE ∧ SameStatus s t ∧ Committed (.prn (regByte ra)) s t

/-- ADD (R60): the sum modulo 256, also when both operands are one register or SP; no flag. -/
def Obligations.AddWritesTheSum : Prop :=
  ∀ (s : State) (ra rb : RegIdx), ∃ t, exec (.add (regByte ra) (regByte rb)) s = .next t ∧
    (t.reg ra).toNat = ((s.reg ra).toNat + (s.reg rb).toNat) % 256 ∧ (∀ r, r ≠ ra → t.reg r = s.reg r) ∧
    t.pc = s.pc + 3#9 ∧ SameMemory s t ∧ t.flE = s.flE ∧ SameStatus s t ∧ t.output = s.output ∧
    Committed (.add (regByte ra) (regByte rb)) s t

/-- MUL (R61): the shift-and-add loop gives the product modulo 256; no flag. -/
def Obligations.MulWritesTheProduct : Prop :=
  ∀ (s : State) (ra rb : RegIdx), ∃ t, exec (.mul (regByte ra) (regByte rb)) s = .next t ∧
    (t.reg ra).toNat = ((s.reg ra).toNat * (s.reg rb).toNat) % 256 ∧ (∀ r, r ≠ ra → t.reg r = s.reg r) ∧
    t.pc = s.pc + 3#9 ∧ SameMemory s t ∧ t.flE = s.flE ∧ SameStatus s t ∧ t.output = s.output ∧
    Committed (.mul (regByte ra) (regByte rb)) s t

/-- CMP (R62): FL.E is 1 exactly when the two registers are equal, whatever it was; no register changes; and no other
instruction, whatever its operands and whether or not it raises, writes FL. -/
def Obligations.CmpSetsTheEqualFlag : Prop :=
  ∀ s : State,
    (∀ ra rb : RegIdx, ∃ t, exec (.cmp (regByte ra) (regByte rb)) s = .next t ∧
      (t.flE = true ↔ s.reg ra = s.reg rb) ∧ t.pc = s.pc + 3#9 ∧
      SameRegs s t ∧ SameMemory s t ∧ SameStatus s t ∧ t.output = s.output ∧
      Committed (.cmp (regByte ra) (regByte rb)) s t) ∧
    (∀ (i : Instr) (t : State), i.op ≠ .cmp → exec i s = .next t → t.flE = s.flE)

/-- PUSH (R64, R63): SP falls by one, the cell it then addresses takes the register, read after the SP write (PUSH R7 stores
the new SP), and no other cell changes; from SP = 0 it raises AddressOutOfRange with -1 and changes nothing.
That the error state keeps IR, OPA and OPB too is log 4 (DEDUCED), not a rule's words. -/
def Obligations.PushStoresBelowTheStackPointer : Prop :=
  ∀ (s : State) (ra : RegIdx), s.mem.wf = true →
    (∀ a : Byte, (a.toNat : Int) = s.pushAddress → ∃ t, exec (.push (regByte ra)) s = .next t ∧
      t.sp = a ∧ (∀ r, r ≠ 7 → t.reg r = s.reg r) ∧
      t.mem.read a = (if ra = 7 then a else s.reg ra) ∧ (∀ c, c ≠ a → t.mem.read c = s.mem.read c) ∧
      t.pc = s.pc + 2#9 ∧ t.flE = s.flE ∧ SameStatus s t ∧ t.output = s.output ∧
      Committed (.push (regByte ra)) s t) ∧
    (s.sp = 0#8 → exec (.push (regByte ra)) s = .next (takeError (.addressOutOfRange (-1)) s))

/-- POP (R65, R63): the register takes the byte SP addresses, then SP, read after that write, rises by one (POP R7 leaves SP
at the loaded byte plus one); where SP would become 256 it raises and changes nothing.
That the error state keeps IR, OPA and OPB too is log 4 (DEDUCED), not a rule's words. -/
def Obligations.PopLoadsAndRaisesTheStackPointer : Prop :=
  ∀ (s : State) (ra : RegIdx),
    (∀ p : Byte, p = (if ra = 7 then s.mem.read s.sp else s.sp) →
      (p ≠ 255#8 → ∃ t, exec (.pop (regByte ra)) s = .next t ∧
        t.sp = p + 1#8 ∧ (ra ≠ 7 → t.reg ra = s.mem.read s.sp) ∧ (∀ r, r ≠ 7 → r ≠ ra → t.reg r = s.reg r) ∧
        t.pc = s.pc + 2#9 ∧ SameMemory s t ∧ t.flE = s.flE ∧ SameStatus s t ∧ t.output = s.output ∧
        Committed (.pop (regByte ra)) s t) ∧
      (p = 255#8 → exec (.pop (regByte ra)) s = .next (takeError (.addressOutOfRange 256) s)))

/-- CALL (R68): the return address, pc + 2, must fit a byte (checked first), SP falls by one (checked next), the cell it then
addresses takes the return address, no other cell changes, and pc takes the register, read after the SP write.
That the error state keeps IR, OPA and OPB too is log 4 (DEDUCED), not a rule's words. -/
def Obligations.CallPushesTheReturnAddress : Prop :=
  ∀ (s : State) (ra : RegIdx), s.mem.wf = true →
    (255 < s.pc.toNat + 2 →
      exec (.call (regByte ra)) s = .next (takeError (.addressOutOfRange (s.pc.toNat + 2)) s)) ∧
    (s.pc.toNat + 2 ≤ 255 → s.sp = 0#8 →
      exec (.call (regByte ra)) s = .next (takeError (.addressOutOfRange (-1)) s)) ∧
    (s.pc.toNat + 2 ≤ 255 → ∀ a : Byte, (a.toNat : Int) = s.pushAddress →
      ∃ t, exec (.call (regByte ra)) s = .next t ∧
        t.sp = a ∧ (∀ r, r ≠ 7 → t.reg r = s.reg r) ∧
        (t.mem.read a).toNat = s.pc.toNat + 2 ∧ (∀ c, c ≠ a → t.mem.read c = s.mem.read c) ∧
        t.pc = (if ra = 7 then a else s.reg ra).setWidth 9 ∧ t.flE = s.flE ∧ SameStatus s t ∧ t.output = s.output ∧
        Committed (.call (regByte ra)) s t)

/-- RET (R69, R63): pc takes the byte SP addresses and SP rises by one; from SP = 255 it raises and changes nothing.
That the error state keeps IR, OPA and OPB too is log 4 (DEDUCED), not a rule's words. -/
def Obligations.RetPopsThePc : Prop :=
  ∀ s : State,
    (s.sp ≠ 255#8 → ∃ t, exec .ret s = .next t ∧
      t.pc = (s.mem.read s.sp).setWidth 9 ∧ t.sp = s.sp + 1#8 ∧ (∀ r, r ≠ 7 → t.reg r = s.reg r) ∧
      SameMemory s t ∧ t.flE = s.flE ∧ SameStatus s t ∧ t.output = s.output ∧ Committed .ret s t) ∧
    (s.sp = 255#8 → exec .ret s = .next (takeError (.addressOutOfRange 256) s))

/-- JMP (R70). -/
def Obligations.JmpGoesToTheRegister : Prop :=
  ∀ (s : State) (ra : RegIdx), ∃ t, exec (.jmp (regByte ra)) s = .next t ∧
    t.pc = (s.reg ra).setWidth 9 ∧ SameRegs s t ∧ SameMemory s t ∧ t.flE = s.flE ∧ SameStatus s t ∧
    t.output = s.output ∧ Committed (.jmp (regByte ra)) s t

/-- JEQ (R71): taken exactly when FL.E is 1, which it does not clear. -/
def Obligations.JeqJumpsWhenEqual : Prop :=
  ∀ (s : State) (ra : RegIdx), ∃ t, exec (.jeq (regByte ra)) s = .next t ∧
    (s.flE = true → t.pc = (s.reg ra).setWidth 9) ∧ (s.flE = false → t.pc = s.pc + 2#9) ∧
    SameRegs s t ∧ SameMemory s t ∧ t.flE = s.flE ∧ SameStatus s t ∧
    t.output = s.output ∧ Committed (.jeq (regByte ra)) s t

/-- JNE (R72): taken exactly when FL.E is 0. -/
def Obligations.JneJumpsWhenNotEqual : Prop :=
  ∀ (s : State) (ra : RegIdx), ∃ t, exec (.jne (regByte ra)) s = .next t ∧
    (s.flE = false → t.pc = (s.reg ra).setWidth 9) ∧ (s.flE = true → t.pc = s.pc + 2#9) ∧
    SameRegs s t ∧ SameMemory s t ∧ t.flE = s.flE ∧ SameStatus s t ∧
    t.output = s.output ∧ Committed (.jne (regByte ra)) s t

/-! ### Rules about the whole machine -/

/-- CMP is the only instruction that writes FL, and no error does (R13, R75). -/
def Obligations.FlagIsWrittenOnlyByCmp : Prop :=
  ∀ s t : State, step s = .next t → t.flE ≠ s.flE → ∃ a b, Runs s (.cmp a b)

/-- JEQ and JNE are the only instructions that read FL (R13): every other one does the same whatever FL holds. -/
def Obligations.FlagIsReadOnlyByJeqAndJne : Prop :=
  ∀ (i : Instr) (s : State) (e : Bool), i.op ≠ .jeq → i.op ≠ .jne →
    ∃ t u, exec i s = .next t ∧ exec i { s with flE := e } = .next u ∧ t = { u with flE := t.flE }

/-- HALTED is set by HALT and by errors alone, and no step clears it (R14); an error keeps the rest of the state (R75).
That the error state keeps IR, OPA and OPB too is log 4 (DEDUCED), not a rule's words. -/
def Obligations.HaltedIsSetOnlyByHaltOrError : Prop :=
  ∀ s t : State, step s = .next t →
    (s.halted = true → t.halted = true) ∧
    (s.halted = false → t.halted = true → Runs s .halt ∨ ∃ e, t = takeError e s)

/-- A register changes only where the instruction names it as its destination, or is SP under a stack instruction (10_state.md
section 1, R7, R9). -/
def Obligations.RegistersChangeOnlyAsNamed : Prop :=
  ∀ (s t : State) (r : RegIdx), step s = .next t → t.reg r ≠ s.reg r →
    ∃ i, Runs s i ∧
      ((∃ imm, i = .ldi (regByte r) imm) ∨ (∃ b, i = .add (regByte r) b) ∨ (∃ b, i = .mul (regByte r) b) ∨
        i = .pop (regByte r) ∨
        (r = 7 ∧ (i = .ret ∨ ∃ a, i = .push a ∨ i = .pop a ∨ i = .call a)))

/-- A step changes no cell but the one PUSH or CALL stores to, at SP - 1, which is then the new SP (R24). -/
def Obligations.MemoryChangesOnlyAtThePushedCell : Prop :=
  ∀ (s t : State) (c : Byte), s.Inv → step s = .next t → t.mem.read c ≠ s.mem.read c →
    (∃ a, Runs s (.push a) ∨ Runs s (.call a)) ∧ (c.toNat : Int) = s.pushAddress ∧ t.sp = c

/-- PRINT_CONST and PRN emit one event each and nothing else emits (R81). -/
def Obligations.OutputComesOnlyFromPrints : Prop :=
  ∀ s t : State, step s = .next t →
    t.output = s.output ∨
    (Runs s .printConst ∧ t.output = s.output ++ [.printConst]) ∨
    (∃ r : RegIdx, Runs s (.prn (regByte r)) ∧ t.output = s.output ++ [.printReg (s.reg r)])

/-- A committed instruction whose set-PC flag is 0 advances pc by its length, never wrapping; JEQ and JNE not taken advance it
by 2; JMP and a taken JEQ or JNE write the register, CALL the register read after its SP write, RET the byte SP addressed, each
zero-extended (R52, R66); pc is at most 256 (R11). The operands of a committed instruction name registers, so the register
clauses cover every form. -/
def Obligations.PcAdvancesByLengthOrToATarget : Prop :=
  ∀ (s t : State) (i : Instr), s.halted = false → Runs s i → step s = .next t → t.trace ≠ s.trace →
    (i.op.opcode.getLsbD 4 = false → t.pc.toNat = s.pc.toNat + i.length) ∧
    ((i.op = .jeq ∧ s.flE = false) ∨ (i.op = .jne ∧ s.flE = true) → t.pc.toNat = s.pc.toNat + 2) ∧
    (∀ ra : RegIdx,
      i = .jmp (regByte ra) ∨ (i = .jeq (regByte ra) ∧ s.flE = true) ∨ (i = .jne (regByte ra) ∧ s.flE = false) →
      t.pc = (s.reg ra).setWidth 9) ∧
    (∀ ra : RegIdx, i = .call (regByte ra) → t.pc = (if ra = 7 then s.sp - 1#8 else s.reg ra).setWidth 9) ∧
    (i = .ret → t.pc = (s.mem.read s.sp).setWidth 9) ∧
    t.pc.toNat ≤ 256 ∧ i.wellFormed = true

/-- At reset the output port has carried what the (empty) trace says. -/
def Obligations.OutputMatchesTheTraceAtReset : Prop := State.reset.OutputMatchesTrace

/-- Every step keeps the output equal to the events of the executed instructions, in program order, one per executed
PRINT_CONST or PRN (R82). -/
def Obligations.StepKeepsOutputMatchingTheTrace : Prop :=
  ∀ s t : State, s.OutputMatchesTrace → step s = .next t → t.OutputMatchesTrace

/-- `UnsupportedAluOp` is never raised: no step and no load latches it; its code stays 5 (R74). -/
def Obligations.UnsupportedAluOpIsNeverRaised : Prop :=
  ∀ (s t : State) (name : Op), s.err ≠ some (.unsupportedAluOp name) →
    (step s = .next t ∨ ∃ bytes, load bytes s = .next t) →
    t.err ≠ some (.unsupportedAluOp name) ∧ (MachineError.unsupportedAluOp name).code = 5

/-- What no instruction reads cannot be seen: two cores that agree on registers, pc, FL, memory, HALTED and ERR, and differ in
latches, port histories and free values as they may, agree after any number of steps and deliver the same events and the same
snapshots (R17, R18, R83, R88). -/
def Obligations.LatchesAndPortsAreInvisible : Prop :=
  ∀ (k : Nat) (s s' t : State), SameArchitecture s s' → core.run k s = .next t →
    ∃ t', core.run k s' = .next t' ∧ SameArchitecture t t' ∧
      ∃ evs snaps, t.output = s.output ++ evs ∧ t'.output = s'.output ++ evs ∧
        t.trace = s.trace ++ snaps ∧ t'.trace = s'.trace ++ snaps

/-- While SP stays at `L` or above, no number of steps changes a cell below `L`: a program of `L` bytes is safe from its own
stack (R96). -/
def Obligations.CellsBelowTheStackAreSafe : Prop :=
  ∀ (L k : Nat) (s t : State), s.Inv →
    (∀ (j : Nat) (u : State), j ≤ k → core.run j s = .next u → L ≤ u.sp.toNat) →
    core.run k s = .next t → ∀ c : Byte, c.toNat < L → t.mem.read c = s.mem.read c

/-! ### Pairs of instructions -/

/-- PUSH Ra then POP Rc, neither being R7, moves the register's value and restores SP, and leaves the value in the cell; PUSH
R7 then POP R7 restores SP (42_stack.md, Laws of the pair). -/
def Obligations.PushThenPopRestoresTheStack : Prop :=
  ∀ (s t : State) (ra rc : RegIdx), s.mem.wf = true → s.sp ≠ 0#8 → exec (.push (regByte ra)) s = .next t →
    (ra ≠ 7 → rc ≠ 7 → ∃ u, exec (.pop (regByte rc)) t = .next u ∧
      u.reg rc = s.reg ra ∧ u.sp = s.sp ∧ u.mem.read (s.sp - 1#8) = s.reg ra ∧
      ∀ r, r ≠ rc → u.reg r = s.reg r) ∧
    (ra = 7 → rc = 7 → ∃ u, exec (.pop (regByte rc)) t = .next u ∧ u.sp = s.sp)

/-- A CALL that completes, then a callee that leaves SP and the byte it addresses as it found them, then RET: control is right
after the CALL's operand byte and SP is as before the CALL (R66, R67, R68, R69). -/
def Obligations.CallThenRetReturns : Prop :=
  ∀ (s t u : State) (ra : RegIdx), s.mem.wf = true → s.sp ≠ 0#8 → s.pc.toNat + 2 ≤ 255 →
    exec (.call (regByte ra)) s = .next t → u.sp = t.sp → u.mem.read u.sp = t.mem.read t.sp →
    ∃ w, exec .ret u = .next w ∧ w.pc.toNat = s.pc.toNat + 2 ∧ w.sp = s.sp

/-- A byte written by PUSH or CALL is what the very next fetch reads at its address, as opcode or as operand (R35, R95). -/
def Obligations.FetchSeesThePushedByte : Prop :=
  ∀ (s t : State) (ra : RegIdx) (k : Nat), s.Inv → step s = .next t → t.halted = false → k < 3 →
    t.pc.toNat + k = t.sp.toNat →
    (Runs s (.push (regByte ra)) → t.fetchWindow[k]? = some (if ra = 7 then t.sp else s.reg ra)) ∧
    (Runs s (.call (regByte ra)) → t.fetchWindow[k]? = some (BitVec.ofNat 8 (s.pc.toNat + 2)))

/-! ### The load and run ports, rendering -/

/-- A load of at most 256 bytes writes byte i to cell i, keeps the cells above, changes nothing else, and returns ok (R30). -/
def Obligations.LoadWritesTheProgramFromZero : Prop :=
  ∀ bytes : List Byte, bytes.length ≤ 256 → ∃ t, load bytes State.reset = .next t ∧
    (∀ (c v : Byte), bytes[c.toNat]? = some v → t.mem.read c = v) ∧
    (∀ c : Byte, bytes.length ≤ c.toNat → t.mem.read c = State.reset.mem.read c) ∧
    t = { State.reset with mem := t.mem } ∧ loadReturns t = none

/-- A load of more than 256 bytes writes no cell, sets HALTED and ERR to ProgramTooLarge with its length, and returns that
error to its caller (R31). -/
def Obligations.TooLongLoadWritesNothing : Prop :=
  ∀ bytes : List Byte, 256 < bytes.length →
    ∃ t, load bytes State.reset = .next t ∧
      t = { State.reset with halted := true, err := some (.programTooLarge bytes.length) } ∧
      loadReturns t = some (.programTooLarge bytes.length)

/-- A load on a core that is not in its reset state is refused, and a core on which a step has executed never is, whatever
the step did (R32). -/
def Obligations.LoadIsRefusedOutsideResetAndAfterAStep : Prop :=
  ∀ (s t : State) (bytes : List Byte),
    (s ≠ State.reset → load bytes s = .refused .loadOutsideReset) ∧
    (step s = .next t → t ≠ State.reset ∧ load bytes t = .refused .loadOutsideReset)

/-- What run answers (R54, R93): called on a halted core, ok at once; else ok only with HALTED set and no error, an error only
with HALTED set and that error in ERR, and not finished only while HALTED is 0; each is the state some number of steps reaches. -/
def Obligations.RunEndsExactlyWhenHalted : Prop :=
  ∀ (fuel : Nat) (s : State), s.Inv →
    (s.halted = true → run fuel s = .ok s) ∧
    (s.halted = false →
      (∃ t, run fuel s = .ok t ∧ t.EndedNormally ∧ ∃ k ≤ fuel, core.run k s = .next t) ∨
      (∃ e t, run fuel s = .error e t ∧ t.halted = true ∧ t.err = some e ∧ ∃ k ≤ fuel, core.run k s = .next t) ∨
      (∃ t, run fuel s = .notFinished t ∧ t.halted = false ∧ core.run fuel s = .next t))

/-- A finished run stays finished with the same result when given more fuel: exhausted fuel is never read as halted (R54). -/
def Obligations.MoreFuelKeepsTheResultOfRun : Prop :=
  ∀ (fuel more : Nat) (s : State), (∀ t, run fuel s ≠ .notFinished t) → run (fuel + more) s = run fuel s

/-- A core stepped after reset with nothing loaded raises IllegalInstruction with opcode 0 at address 0 (R92).
That the error state keeps IR, OPA and OPB too is log 4 (DEDUCED), not a rule's words. -/
def Obligations.UnloadedCoreRaisesIllegalInstruction : Prop :=
  step State.reset = .next (takeError (.illegalInstruction 0#8 0#9) State.reset)

/-- PrintReg(v) is rendered as the decimal digits of v without leading zeros, PrintConst as PRINT_CONST_TEXT, each followed by
PRINT_TERMINATOR, whatever those two texts are (R82). -/
def Obligations.EventsRenderAsDecimalText : Prop :=
  render .printConst = Config.printConstText ++ Config.printTerminator ∧
  ∀ v : Byte,
    render (.printReg v) = String.ofList ((decimalDigits v).map Nat.digitChar) ++ Config.printTerminator ∧
    (decimalDigits v).foldl (fun n d => 10 * n + d) 0 = v.toNat ∧ (∀ d ∈ decimalDigits v, d < 10) ∧
    ((decimalDigits v).head? = some 0 → decimalDigits v = [0])
end

