-- ==== Sys2Proof/Laws/Decode.lean ====
section
/-! SUPPORT. Small lemmas of the encoding: the length of each instruction, and the row each opcode byte selects. -/

namespace Sys2Proof

@[simp] theorem Instr.length_printConst : Instr.printConst.length = 1 := show 1 + operandCount Op.printConst.opcode = 1 by decide
@[simp] theorem Instr.length_halt : Instr.halt.length = 1 := show 1 + operandCount Op.halt.opcode = 1 by decide
@[simp] theorem Instr.length_ldi (a imm : Byte) : (Instr.ldi a imm).length = 3 := show 1 + operandCount Op.ldi.opcode = 3 by decide
@[simp] theorem Instr.length_prn (a : Byte) : (Instr.prn a).length = 2 := show 1 + operandCount Op.prn.opcode = 2 by decide
@[simp] theorem Instr.length_add (a b : Byte) : (Instr.add a b).length = 3 := show 1 + operandCount Op.add.opcode = 3 by decide
@[simp] theorem Instr.length_mul (a b : Byte) : (Instr.mul a b).length = 3 := show 1 + operandCount Op.mul.opcode = 3 by decide
@[simp] theorem Instr.length_cmp (a b : Byte) : (Instr.cmp a b).length = 3 := show 1 + operandCount Op.cmp.opcode = 3 by decide
@[simp] theorem Instr.length_push (a : Byte) : (Instr.push a).length = 2 := show 1 + operandCount Op.push.opcode = 2 by decide
@[simp] theorem Instr.length_pop (a : Byte) : (Instr.pop a).length = 2 := show 1 + operandCount Op.pop.opcode = 2 by decide
@[simp] theorem Instr.length_call (a : Byte) : (Instr.call a).length = 2 := show 1 + operandCount Op.call.opcode = 2 by decide
@[simp] theorem Instr.length_ret : Instr.ret.length = 1 := show 1 + operandCount Op.ret.opcode = 1 by decide
@[simp] theorem Instr.length_jmp (a : Byte) : (Instr.jmp a).length = 2 := show 1 + operandCount Op.jmp.opcode = 2 by decide
@[simp] theorem Instr.length_jeq (a : Byte) : (Instr.jeq a).length = 2 := show 1 + operandCount Op.jeq.opcode = 2 by decide
@[simp] theorem Instr.length_jne (a : Byte) : (Instr.jne a).length = 2 := show 1 + operandCount Op.jne.opcode = 2 by decide

/-- The decoder's map sends each kind's opcode byte to that kind's row: the map and the encoder's table agree. -/
theorem lookupOpcode_opcode (op : Op) : ∃ row, lookupOpcode op.opcode = some row ∧ row.op = op := by
  cases op <;> exact ⟨_, rfl, rfl⟩

/-- A row the lookup answers is a row of the map and has the byte looked up. -/
theorem lookupOpcode_some {c : Byte} {row : OpcodeRow} (h : lookupOpcode c = some row) : row ∈ opcodeMap ∧ row.byte = c := by
  refine ⟨List.mem_of_find?_eq_some h, ?_⟩
  simpa using List.find?_some h

/-- Every row of the map has the opcode byte of its kind. -/
theorem opcodeMap_byte : ∀ row ∈ opcodeMap, row.byte = row.op.opcode := by decide

/-- Every row's operand column is bits 7-6 of its byte (30_encoding.md R36, R42). -/
theorem opcodeMap_operands : ∀ row ∈ opcodeMap, row.operands = operandCount row.byte := by decide

/-- A legal opcode byte is the opcode of the kind its row has. -/
theorem lookupOpcode_byte {c : Byte} {row : OpcodeRow} (h : lookupOpcode c = some row) : c = row.op.opcode := by
  obtain ⟨hm, hb⟩ := lookupOpcode_some h
  rw [← hb, opcodeMap_byte row hm]

end Sys2Proof
end

