-- ==== Sys2Proof/Laws/Memory.lean ====
section
/-! SUPPORT. The memory laws: every write keeps the canonical form, and reads see the latest write (20_memory.md R29, R33). -/

namespace Sys2Proof.Machine

/-- A canonical list is canonical above every lower bound that its addresses respect. -/
theorem Memory.wfFrom_mono {lo lo' : Nat} (h : lo' ≤ lo) (m : Memory) (hm : m.wfFrom lo = true) : m.wfFrom lo' = true := by
  cases m with
  | nil => rfl
  | cons p rest =>
    obtain ⟨c, w⟩ := p
    simp only [Memory.wfFrom, Bool.and_eq_true, decide_eq_true_eq] at hm ⊢
    exact ⟨⟨⟨by omega, hm.1.1.2⟩, hm.1.2⟩, hm.2⟩

/-- An address below all listed ones reads as unlisted. -/
theorem Memory.cell_below {lo a : Nat} (h : a < lo) (m : Memory) (hm : m.wfFrom lo = true) :
    m.cell a = Config.unlistedByte := by
  induction m generalizing lo with
  | nil => rfl
  | cons p rest ih =>
    obtain ⟨c, w⟩ := p
    simp only [Memory.wfFrom, Bool.and_eq_true, decide_eq_true_eq] at hm
    have hne : a ≠ c := by omega
    simp only [Memory.cell, if_neg hne]
    exact ih (by omega) hm.2

theorem Memory.setCell_wfFrom {lo a : Nat} (v : Byte) (hlo : lo ≤ a) (ha : a < Config.memSize) (m : Memory)
    (hm : m.wfFrom lo = true) : (m.setCell a v).wfFrom lo = true := by
  induction m generalizing lo with
  | nil =>
    by_cases hv : v = Config.unlistedByte <;> simp [Memory.setCell, Memory.wfFrom, hv, hlo, ha]
  | cons p rest ih =>
    obtain ⟨c, w⟩ := p
    have hm0 := hm
    simp only [Memory.wfFrom, Bool.and_eq_true, decide_eq_true_eq] at hm
    simp only [Memory.setCell]
    split
    · split
      · exact hm0
      · simp only [Memory.wfFrom, Bool.and_eq_true, decide_eq_true_eq]
        exact ⟨⟨⟨hlo, ha⟩, ‹_›⟩, ⟨⟨by omega, hm.1.1.2⟩, hm.1.2⟩, hm.2⟩
    · split
      · split
        · exact Memory.wfFrom_mono (by omega) rest hm.2
        · subst a
          simp only [Memory.wfFrom, Bool.and_eq_true, decide_eq_true_eq]
          exact ⟨⟨⟨hlo, ha⟩, ‹_›⟩, hm.2⟩
      · simp only [Memory.wfFrom, Bool.and_eq_true, decide_eq_true_eq]
        exact ⟨hm.1, ih (by omega) hm.2⟩

theorem Memory.cell_setCell {lo : Nat} (a b : Nat) (v : Byte) (m : Memory) (hm : m.wfFrom lo = true) :
    (m.setCell a v).cell b = if b = a then v else m.cell b := by
  induction m generalizing lo with
  | nil =>
    by_cases hv : v = Config.unlistedByte <;> by_cases hb : b = a <;> simp [Memory.setCell, Memory.cell, hv, hb]
  | cons p rest ih =>
    obtain ⟨c, w⟩ := p
    simp only [Memory.wfFrom, Bool.and_eq_true, decide_eq_true_eq] at hm
    have hrest : ∀ x, x ≤ c → Memory.cell rest x = Config.unlistedByte := fun x hx =>
      Memory.cell_below (by omega) rest hm.2
    simp only [Memory.setCell]
    split
    · split
      · by_cases hb : b = a
        · have hbc : b ≠ c := by omega
          simp only [Memory.cell, if_neg hbc, if_pos hb, hrest b (by omega)]
          exact (‹v = Config.unlistedByte›).symm
        · simp [hb]
      · simp only [Memory.cell]
    · split
      · subst a
        split
        · by_cases hb : b = c
          · simp only [hb, hrest c (le_refl c)]
            exact (‹v = Config.unlistedByte›).symm
          · simp [Memory.cell, hb]
        · by_cases hb : b = c <;> simp [Memory.cell, hb]
      · have hac : a ≠ c := ‹_›
        simp only [Memory.cell, ih hm.2]
        by_cases hb : b = c
        · have hba : b ≠ a := fun h => hac (h ▸ hb)
          rw [if_pos hb, if_neg hba, if_pos hb]
        · simp [hb]

/-- Every write keeps the canonical form. -/
theorem Memory.write_wf (m : Memory) (a v : Byte) (hm : m.wf = true) : (m.write a v).wf = true :=
  Memory.setCell_wfFrom v (Nat.zero_le _) a.isLt m hm

/-- A read after a write: the value written at that address, the old value at every other. -/
theorem Memory.read_write (m : Memory) (a v b : Byte) (hm : m.wf = true) :
    (m.write a v).read b = if b = a then v else m.read b := by
  simp only [Memory.read, Memory.write]
  rw [Memory.cell_setCell a.toNat b.toNat v m hm]
  simp [BitVec.toNat_inj]

theorem Memory.writeBytes_wf (m : Memory) (a : Nat) (vs : List Byte) (hm : m.wf = true) :
    (m.writeBytes a vs).wf = true := by
  induction vs generalizing m a with
  | nil => exact hm
  | cons v vs ih =>
    simp only [Memory.writeBytes]
    split
    · exact ih _ _ (Memory.write_wf m _ v hm)
    · exact hm

/-- Reading after writing a block: inside the block the block's byte, outside it the old value. -/
theorem Memory.read_writeBytes (m : Memory) (a : Nat) (vs : List Byte) (hm : m.wf = true) (b : Byte) :
    (m.writeBytes a vs).read b = if b.toNat < a then m.read b else (vs[b.toNat - a]?).getD (m.read b) := by
  induction vs generalizing m a with
  | nil => simp [Memory.writeBytes]
  | cons v vs ih =>
    simp only [Memory.writeBytes]
    have hb : b.toNat < 256 := b.isLt
    split
    · rename_i ha
      have ha : a < 256 := ha
      rw [ih _ _ (Memory.write_wf m _ v hm), Memory.read_write _ _ _ _ hm]
      have hba : (b = BitVec.ofNat 8 a) ↔ b.toNat = a := by
        rw [← BitVec.toNat_inj, BitVec.toNat_ofNat, Nat.mod_eq_of_lt ha]
      simp only [hba]
      rcases Nat.lt_trichotomy b.toNat a with h | h | h
      · rw [if_pos (by omega), if_neg (by omega), if_pos h]
      · rw [if_pos (by omega), if_pos h, if_neg (by omega), h]
        simp
      · rw [if_neg (by omega), if_neg (by omega), if_neg (by omega)]
        obtain ⟨k, hk⟩ : ∃ k, b.toNat - a = k + 1 := ⟨b.toNat - a - 1, by omega⟩
        rw [hk, show b.toNat - (a + 1) = k by omega]
        simp
    · have ha : ¬ a < 256 := ‹_›
      rw [if_pos (by omega)]

end Sys2Proof.Machine
end

