-- ==== Sys2Proof/Laws/State.lean ====
section
/-! SUPPORT. One lemma per field per update of State, so that no later proof unfolds a record update. -/

namespace Sys2Proof.Machine

/-! `setReg` -/

@[simp] theorem State.setReg_regs (s : State) (r : RegIdx) (v : Byte) : (s.setReg r v).regs = s.regs.set r.val v := rfl
@[simp] theorem State.setReg_pc (s : State) (r : RegIdx) (v : Byte) : (s.setReg r v).pc = s.pc := rfl
@[simp] theorem State.setReg_flE (s : State) (r : RegIdx) (v : Byte) : (s.setReg r v).flE = s.flE := rfl
@[simp] theorem State.setReg_halted (s : State) (r : RegIdx) (v : Byte) : (s.setReg r v).halted = s.halted := rfl
@[simp] theorem State.setReg_err (s : State) (r : RegIdx) (v : Byte) : (s.setReg r v).err = s.err := rfl
@[simp] theorem State.setReg_ir (s : State) (r : RegIdx) (v : Byte) : (s.setReg r v).ir = s.ir := rfl
@[simp] theorem State.setReg_opa (s : State) (r : RegIdx) (v : Byte) : (s.setReg r v).opa = s.opa := rfl
@[simp] theorem State.setReg_opb (s : State) (r : RegIdx) (v : Byte) : (s.setReg r v).opb = s.opb := rfl
@[simp] theorem State.setReg_mem (s : State) (r : RegIdx) (v : Byte) : (s.setReg r v).mem = s.mem := rfl
@[simp] theorem State.setReg_output (s : State) (r : RegIdx) (v : Byte) : (s.setReg r v).output = s.output := rfl
@[simp] theorem State.setReg_trace (s : State) (r : RegIdx) (v : Byte) : (s.setReg r v).trace = s.trace := rfl
@[simp] theorem State.setReg_draws (s : State) (r : RegIdx) (v : Byte) : (s.setReg r v).draws = s.draws := rfl

/-! `setSp` -/

@[simp] theorem State.setSp_regs (s : State) (v : Byte) : (s.setSp v).regs = s.regs.set 7 v := rfl
@[simp] theorem State.setSp_pc (s : State) (v : Byte) : (s.setSp v).pc = s.pc := rfl
@[simp] theorem State.setSp_flE (s : State) (v : Byte) : (s.setSp v).flE = s.flE := rfl
@[simp] theorem State.setSp_halted (s : State) (v : Byte) : (s.setSp v).halted = s.halted := rfl
@[simp] theorem State.setSp_err (s : State) (v : Byte) : (s.setSp v).err = s.err := rfl
@[simp] theorem State.setSp_ir (s : State) (v : Byte) : (s.setSp v).ir = s.ir := rfl
@[simp] theorem State.setSp_opa (s : State) (v : Byte) : (s.setSp v).opa = s.opa := rfl
@[simp] theorem State.setSp_opb (s : State) (v : Byte) : (s.setSp v).opb = s.opb := rfl
@[simp] theorem State.setSp_mem (s : State) (v : Byte) : (s.setSp v).mem = s.mem := rfl
@[simp] theorem State.setSp_output (s : State) (v : Byte) : (s.setSp v).output = s.output := rfl
@[simp] theorem State.setSp_trace (s : State) (v : Byte) : (s.setSp v).trace = s.trace := rfl
@[simp] theorem State.setSp_draws (s : State) (v : Byte) : (s.setSp v).draws = s.draws := rfl

/-! `setPc` -/

@[simp] theorem State.setPc_regs (s : State) (v : PcWord) : (s.setPc v).regs = s.regs := rfl
@[simp] theorem State.setPc_pc (s : State) (v : PcWord) : (s.setPc v).pc = v := rfl
@[simp] theorem State.setPc_flE (s : State) (v : PcWord) : (s.setPc v).flE = s.flE := rfl
@[simp] theorem State.setPc_halted (s : State) (v : PcWord) : (s.setPc v).halted = s.halted := rfl
@[simp] theorem State.setPc_err (s : State) (v : PcWord) : (s.setPc v).err = s.err := rfl
@[simp] theorem State.setPc_ir (s : State) (v : PcWord) : (s.setPc v).ir = s.ir := rfl
@[simp] theorem State.setPc_opa (s : State) (v : PcWord) : (s.setPc v).opa = s.opa := rfl
@[simp] theorem State.setPc_opb (s : State) (v : PcWord) : (s.setPc v).opb = s.opb := rfl
@[simp] theorem State.setPc_mem (s : State) (v : PcWord) : (s.setPc v).mem = s.mem := rfl
@[simp] theorem State.setPc_output (s : State) (v : PcWord) : (s.setPc v).output = s.output := rfl
@[simp] theorem State.setPc_trace (s : State) (v : PcWord) : (s.setPc v).trace = s.trace := rfl
@[simp] theorem State.setPc_draws (s : State) (v : PcWord) : (s.setPc v).draws = s.draws := rfl

/-! `advance` -/

@[simp] theorem State.advance_regs (s : State) (i : Instr) : (s.advance i).regs = s.regs := rfl
@[simp] theorem State.advance_pc (s : State) (i : Instr) : (s.advance i).pc = s.pc + BitVec.ofNat 9 i.length := rfl
@[simp] theorem State.advance_flE (s : State) (i : Instr) : (s.advance i).flE = s.flE := rfl
@[simp] theorem State.advance_halted (s : State) (i : Instr) : (s.advance i).halted = s.halted := rfl
@[simp] theorem State.advance_err (s : State) (i : Instr) : (s.advance i).err = s.err := rfl
@[simp] theorem State.advance_ir (s : State) (i : Instr) : (s.advance i).ir = s.ir := rfl
@[simp] theorem State.advance_opa (s : State) (i : Instr) : (s.advance i).opa = s.opa := rfl
@[simp] theorem State.advance_opb (s : State) (i : Instr) : (s.advance i).opb = s.opb := rfl
@[simp] theorem State.advance_mem (s : State) (i : Instr) : (s.advance i).mem = s.mem := rfl
@[simp] theorem State.advance_output (s : State) (i : Instr) : (s.advance i).output = s.output := rfl
@[simp] theorem State.advance_trace (s : State) (i : Instr) : (s.advance i).trace = s.trace := rfl
@[simp] theorem State.advance_draws (s : State) (i : Instr) : (s.advance i).draws = s.draws := rfl

/-! `jump` -/

@[simp] theorem State.jump_regs (s : State) (v : Byte) : (s.jump v).regs = s.regs := rfl
@[simp] theorem State.jump_pc (s : State) (v : Byte) : (s.jump v).pc = v.setWidth 9 := rfl
@[simp] theorem State.jump_flE (s : State) (v : Byte) : (s.jump v).flE = s.flE := rfl
@[simp] theorem State.jump_halted (s : State) (v : Byte) : (s.jump v).halted = s.halted := rfl
@[simp] theorem State.jump_err (s : State) (v : Byte) : (s.jump v).err = s.err := rfl
@[simp] theorem State.jump_ir (s : State) (v : Byte) : (s.jump v).ir = s.ir := rfl
@[simp] theorem State.jump_opa (s : State) (v : Byte) : (s.jump v).opa = s.opa := rfl
@[simp] theorem State.jump_opb (s : State) (v : Byte) : (s.jump v).opb = s.opb := rfl
@[simp] theorem State.jump_mem (s : State) (v : Byte) : (s.jump v).mem = s.mem := rfl
@[simp] theorem State.jump_output (s : State) (v : Byte) : (s.jump v).output = s.output := rfl
@[simp] theorem State.jump_trace (s : State) (v : Byte) : (s.jump v).trace = s.trace := rfl
@[simp] theorem State.jump_draws (s : State) (v : Byte) : (s.jump v).draws = s.draws := rfl

/-! `store` -/

@[simp] theorem State.store_regs (s : State) (a v : Byte) : (s.store a v).regs = s.regs := rfl
@[simp] theorem State.store_pc (s : State) (a v : Byte) : (s.store a v).pc = s.pc := rfl
@[simp] theorem State.store_flE (s : State) (a v : Byte) : (s.store a v).flE = s.flE := rfl
@[simp] theorem State.store_halted (s : State) (a v : Byte) : (s.store a v).halted = s.halted := rfl
@[simp] theorem State.store_err (s : State) (a v : Byte) : (s.store a v).err = s.err := rfl
@[simp] theorem State.store_ir (s : State) (a v : Byte) : (s.store a v).ir = s.ir := rfl
@[simp] theorem State.store_opa (s : State) (a v : Byte) : (s.store a v).opa = s.opa := rfl
@[simp] theorem State.store_opb (s : State) (a v : Byte) : (s.store a v).opb = s.opb := rfl
@[simp] theorem State.store_mem (s : State) (a v : Byte) : (s.store a v).mem = s.mem.write a v := rfl
@[simp] theorem State.store_output (s : State) (a v : Byte) : (s.store a v).output = s.output := rfl
@[simp] theorem State.store_trace (s : State) (a v : Byte) : (s.store a v).trace = s.trace := rfl
@[simp] theorem State.store_draws (s : State) (a v : Byte) : (s.store a v).draws = s.draws := rfl

/-! `setHalted` -/

@[simp] theorem State.setHalted_regs (s : State) : (s.setHalted).regs = s.regs := rfl
@[simp] theorem State.setHalted_pc (s : State) : (s.setHalted).pc = s.pc := rfl
@[simp] theorem State.setHalted_flE (s : State) : (s.setHalted).flE = s.flE := rfl
@[simp] theorem State.setHalted_halted (s : State) : (s.setHalted).halted = true := rfl
@[simp] theorem State.setHalted_err (s : State) : (s.setHalted).err = s.err := rfl
@[simp] theorem State.setHalted_ir (s : State) : (s.setHalted).ir = s.ir := rfl
@[simp] theorem State.setHalted_opa (s : State) : (s.setHalted).opa = s.opa := rfl
@[simp] theorem State.setHalted_opb (s : State) : (s.setHalted).opb = s.opb := rfl
@[simp] theorem State.setHalted_mem (s : State) : (s.setHalted).mem = s.mem := rfl
@[simp] theorem State.setHalted_output (s : State) : (s.setHalted).output = s.output := rfl
@[simp] theorem State.setHalted_trace (s : State) : (s.setHalted).trace = s.trace := rfl
@[simp] theorem State.setHalted_draws (s : State) : (s.setHalted).draws = s.draws := rfl

/-! `emit` -/

@[simp] theorem State.emit_regs (s : State) (ev : OutputEvent) : (s.emit ev).regs = s.regs := rfl
@[simp] theorem State.emit_pc (s : State) (ev : OutputEvent) : (s.emit ev).pc = s.pc := rfl
@[simp] theorem State.emit_flE (s : State) (ev : OutputEvent) : (s.emit ev).flE = s.flE := rfl
@[simp] theorem State.emit_halted (s : State) (ev : OutputEvent) : (s.emit ev).halted = s.halted := rfl
@[simp] theorem State.emit_err (s : State) (ev : OutputEvent) : (s.emit ev).err = s.err := rfl
@[simp] theorem State.emit_ir (s : State) (ev : OutputEvent) : (s.emit ev).ir = s.ir := rfl
@[simp] theorem State.emit_opa (s : State) (ev : OutputEvent) : (s.emit ev).opa = s.opa := rfl
@[simp] theorem State.emit_opb (s : State) (ev : OutputEvent) : (s.emit ev).opb = s.opb := rfl
@[simp] theorem State.emit_mem (s : State) (ev : OutputEvent) : (s.emit ev).mem = s.mem := rfl
@[simp] theorem State.emit_output (s : State) (ev : OutputEvent) : (s.emit ev).output = s.output ++ [ev] := rfl
@[simp] theorem State.emit_trace (s : State) (ev : OutputEvent) : (s.emit ev).trace = s.trace := rfl
@[simp] theorem State.emit_draws (s : State) (ev : OutputEvent) : (s.emit ev).draws = s.draws := rfl

/-! `setE` -/

@[simp] theorem State.setE_regs (s : State) (e : Bool) : (s.setE e).regs = s.regs := rfl
@[simp] theorem State.setE_pc (s : State) (e : Bool) : (s.setE e).pc = s.pc := rfl
@[simp] theorem State.setE_flE (s : State) (e : Bool) : (s.setE e).flE = e := rfl
@[simp] theorem State.setE_halted (s : State) (e : Bool) : (s.setE e).halted = s.halted := rfl
@[simp] theorem State.setE_err (s : State) (e : Bool) : (s.setE e).err = s.err := rfl
@[simp] theorem State.setE_ir (s : State) (e : Bool) : (s.setE e).ir = s.ir := rfl
@[simp] theorem State.setE_opa (s : State) (e : Bool) : (s.setE e).opa = s.opa := rfl
@[simp] theorem State.setE_opb (s : State) (e : Bool) : (s.setE e).opb = s.opb := rfl
@[simp] theorem State.setE_mem (s : State) (e : Bool) : (s.setE e).mem = s.mem := rfl
@[simp] theorem State.setE_output (s : State) (e : Bool) : (s.setE e).output = s.output := rfl
@[simp] theorem State.setE_trace (s : State) (e : Bool) : (s.setE e).trace = s.trace := rfl
@[simp] theorem State.setE_draws (s : State) (e : Bool) : (s.setE e).draws = s.draws := rfl

/-! `takeError` -/

@[simp] theorem takeError_regs (e : MachineError) (s : State) : (takeError e s).regs = s.regs := rfl
@[simp] theorem takeError_pc (e : MachineError) (s : State) : (takeError e s).pc = s.pc := rfl
@[simp] theorem takeError_flE (e : MachineError) (s : State) : (takeError e s).flE = s.flE := rfl
@[simp] theorem takeError_halted (e : MachineError) (s : State) : (takeError e s).halted = true := rfl
@[simp] theorem takeError_err (e : MachineError) (s : State) : (takeError e s).err = some e := rfl
@[simp] theorem takeError_ir (e : MachineError) (s : State) : (takeError e s).ir = s.ir := rfl
@[simp] theorem takeError_opa (e : MachineError) (s : State) : (takeError e s).opa = s.opa := rfl
@[simp] theorem takeError_opb (e : MachineError) (s : State) : (takeError e s).opb = s.opb := rfl
@[simp] theorem takeError_mem (e : MachineError) (s : State) : (takeError e s).mem = s.mem := rfl
@[simp] theorem takeError_output (e : MachineError) (s : State) : (takeError e s).output = s.output := rfl
@[simp] theorem takeError_trace (e : MachineError) (s : State) : (takeError e s).trace = s.trace := rfl
@[simp] theorem takeError_draws (e : MachineError) (s : State) : (takeError e s).draws = s.draws := rfl

/-! `commit` -/

@[simp] theorem commit_regs (i : Instr) (s t : State) : (commit i s t).regs = t.regs := rfl
@[simp] theorem commit_pc (i : Instr) (s t : State) : (commit i s t).pc = t.pc := rfl
@[simp] theorem commit_flE (i : Instr) (s t : State) : (commit i s t).flE = t.flE := rfl
@[simp] theorem commit_halted (i : Instr) (s t : State) : (commit i s t).halted = t.halted := rfl
@[simp] theorem commit_err (i : Instr) (s t : State) : (commit i s t).err = t.err := rfl
@[simp] theorem commit_ir (i : Instr) (s t : State) : (commit i s t).ir = i.op.opcode := rfl
@[simp] theorem commit_opa (i : Instr) (s t : State) : (commit i s t).opa = i.operands[0]?.getD (Config.freeLatch s.draws) := rfl
@[simp] theorem commit_opb (i : Instr) (s t : State) : (commit i s t).opb = i.operands[1]?.getD (Config.freeLatch (s.draws + 1)) := rfl
@[simp] theorem commit_mem (i : Instr) (s t : State) : (commit i s t).mem = t.mem := rfl
@[simp] theorem commit_output (i : Instr) (s t : State) : (commit i s t).output = t.output := rfl
@[simp] theorem commit_trace (i : Instr) (s t : State) : (commit i s t).trace = s.trace ++ [snapshot i s t] := rfl
@[simp] theorem commit_draws (i : Instr) (s t : State) : (commit i s t).draws = s.draws + 2 := rfl

/-! ### Registers read back -/

theorem State.reg_setReg (s : State) (r q : RegIdx) (v : Byte) :
    (s.setReg r v).reg q = if q = r then v else s.reg q := by
  simp only [State.reg, State.setReg, Vector.getElem_set]
  by_cases h : r = q
  · simp [h]
  · rw [if_neg (fun h' => h (Fin.ext h')), if_neg (fun h' => h h'.symm)]

@[simp] theorem State.reg_setReg_self (s : State) (r : RegIdx) (v : Byte) : (s.setReg r v).reg r = v := by
  simp [State.reg_setReg]

theorem State.reg_setSp (s : State) (q : RegIdx) (v : Byte) :
    (s.setSp v).reg q = if q = Config.spIndex then v else s.reg q := State.reg_setReg s _ q v

@[simp] theorem State.sp_setSp (s : State) (v : Byte) : (s.setSp v).sp = v := State.reg_setReg_self s _ v

/-- An update that leaves the register bank alone leaves every register alone. -/
theorem State.reg_congr (s t : State) (h : t.regs = s.regs) (r : RegIdx) : t.reg r = s.reg r := by
  simp [State.reg, h]

@[simp] theorem State.reg_setPc (s : State) (v : PcWord) (r : RegIdx) : (s.setPc v).reg r = s.reg r := rfl
@[simp] theorem State.reg_advance (s : State) (i : Instr) (r : RegIdx) : (s.advance i).reg r = s.reg r := rfl
@[simp] theorem State.reg_jump (s : State) (v : Byte) (r : RegIdx) : (s.jump v).reg r = s.reg r := rfl
@[simp] theorem State.reg_store (s : State) (a v : Byte) (r : RegIdx) : (s.store a v).reg r = s.reg r := rfl
@[simp] theorem State.reg_setHalted (s : State) (r : RegIdx) : s.setHalted.reg r = s.reg r := rfl
@[simp] theorem State.reg_emit (s : State) (ev : OutputEvent) (r : RegIdx) : (s.emit ev).reg r = s.reg r := rfl
@[simp] theorem State.reg_setE (s : State) (e : Bool) (r : RegIdx) : (s.setE e).reg r = s.reg r := rfl
@[simp] theorem reg_takeError (e : MachineError) (s : State) (r : RegIdx) : (takeError e s).reg r = s.reg r := rfl
@[simp] theorem reg_commit (i : Instr) (s t : State) (r : RegIdx) : (commit i s t).reg r = t.reg r := rfl

end Sys2Proof.Machine
end

