-- ==== Sys2Proof/Laws/Ops.lean ====
section
/-! SUPPORT. One lemma per shared operation that says what it can do. -/

namespace Sys2Proof.Machine

/-! ### Register operands -/

theorem regByte_toNat (r : RegIdx) : (regByte r).toNat = r.val := by
  have h := r.isLt
  simp only [regByte, BitVec.toNat_ofNat]
  omega

@[simp] theorem withReg_regByte {α : Type} (r : RegIdx) (k : RegIdx → Except MachineError α) :
    withReg (regByte r) k = k r := by
  have h : (regByte r).toNat < 8 := by rw [regByte_toNat]; exact r.isLt
  simp only [withReg, dif_pos h]
  exact congrArg k (Fin.ext (regByte_toNat r))

theorem withReg_bad {α : Type} (v : Byte) (k : RegIdx → Except MachineError α) (h : 8 ≤ v.toNat) :
    withReg v k = .error (.registerOutOfRange v) := dif_neg (by omega)

/-- A register operand byte either names a register or raises. -/
theorem withReg_cases {α : Type} (v : Byte) (k : RegIdx → Except MachineError α) :
    (∃ r, v = regByte r ∧ withReg v k = k r) ∨
      (8 ≤ v.toNat ∧ withReg v k = .error (.registerOutOfRange v)) := by
  by_cases h : v.toNat < 8
  · refine .inl ⟨⟨v.toNat, h⟩, ?_, dif_pos h⟩
    apply BitVec.eq_of_toNat_eq
    rw [regByte_toNat]
  · exact .inr ⟨by omega, withReg_bad v k (by omega)⟩

/-! ### Address checks -/

theorem withAddress_ok {α : Type} (a : Int) (k : Byte → Except MachineError α) (h0 : 0 ≤ a) (h1 : a < 256) :
    withAddress a k = k (BitVec.ofNat 8 a.toNat) := if_pos ⟨h0, h1⟩

theorem withAddress_bad {α : Type} (a : Int) (k : Byte → Except MachineError α) (h : a < 0 ∨ 256 ≤ a) :
    withAddress a k = .error (.addressOutOfRange a) := by
  refine if_neg fun hc => ?_
  have h1 : a < 256 := hc.2
  omega

theorem withAddress_cases {α : Type} (a : Int) (k : Byte → Except MachineError α) :
    (∃ b : Byte, (b.toNat : Int) = a ∧ withAddress a k = k b) ∨
      ((a < 0 ∨ 256 ≤ a) ∧ withAddress a k = .error (.addressOutOfRange a)) := by
  by_cases h : 0 ≤ a ∧ a < 256
  · refine .inl ⟨BitVec.ofNat 8 a.toNat, ?_, withAddress_ok a k h.1 h.2⟩
    simp only [BitVec.toNat_ofNat]
    omega
  · exact .inr ⟨by omega, withAddress_bad a k (by omega)⟩

/-- A push's decrement: SP becomes the address below it, or SP was 0 and -1 raises. -/
theorem withPushedSp_cases {α : Type} (s : State) (k : State → Except MachineError α) :
    (∃ a : Byte, (a.toNat : Int) = s.pushAddress ∧ withPushedSp s k = k (s.setSp a)) ∨
      (s.sp = 0#8 ∧ withPushedSp s k = .error (.addressOutOfRange (-1))) := by
  have hlt : s.sp.toNat < 256 := s.sp.isLt
  have hdef : s.pushAddress = (s.sp.toNat : Int) - 1 := rfl
  rcases withAddress_cases s.pushAddress (fun a => k (s.setSp a)) with ⟨a, ha, h⟩ | ⟨ha, h⟩
  · exact .inl ⟨a, ha, h⟩
  · have h0 : s.pushAddress = -1 := by omega
    refine .inr ⟨BitVec.eq_of_toNat_eq (show s.sp.toNat = 0 by omega), ?_⟩
    rw [h0] at h
    rw [withPushedSp, h0, h]

/-- A pop's increment: SP rises by one, or SP was 255 and 256 raises. -/
theorem withPoppedSp_cases {α : Type} (s : State) (k : State → Except MachineError α) :
    (∃ a : Byte, (a.toNat : Int) = s.poppedSp ∧ withPoppedSp s k = k (s.setSp a)) ∨
      (s.sp = 255#8 ∧ withPoppedSp s k = .error (.addressOutOfRange 256)) := by
  have hlt : s.sp.toNat < 256 := s.sp.isLt
  have hdef : s.poppedSp = (s.sp.toNat : Int) + 1 := rfl
  rcases withAddress_cases s.poppedSp (fun a => k (s.setSp a)) with ⟨a, ha, h⟩ | ⟨ha, h⟩
  · exact .inl ⟨a, ha, h⟩
  · have h0 : s.poppedSp = 256 := by omega
    refine .inr ⟨BitVec.eq_of_toNat_eq (show s.sp.toNat = 255 by omega), ?_⟩
    rw [h0] at h
    rw [withPoppedSp, h0, h]

theorem withPushedSp_at {α : Type} (s : State) (k : State → Except MachineError α) (a : Byte)
    (h : (a.toNat : Int) = s.pushAddress) : withPushedSp s k = k (s.setSp a) := by
  have ha := a.isLt
  rw [withPushedSp, withAddress_ok _ _ (by omega) (by omega), ← h]
  simp

theorem withPushedSp_zero {α : Type} (s : State) (k : State → Except MachineError α) (h : s.sp = 0#8) :
    withPushedSp s k = .error (.addressOutOfRange (-1)) := by
  have h1 : s.pushAddress = -1 := by simp [State.pushAddress, h]
  rw [withPushedSp, h1, withAddress_bad _ _ (by omega)]

theorem withPoppedSp_below {α : Type} (s : State) (k : State → Except MachineError α) (h : s.sp ≠ 255#8) :
    withPoppedSp s k = k (s.setSp (s.sp + 1#8)) := by
  rcases withPoppedSp_cases s k with ⟨a, ha, hk⟩ | ⟨ha, _⟩
  · have hlt := a.isLt
    have hs : s.poppedSp = (s.sp.toNat : Int) + 1 := rfl
    have hsp : a = s.sp + 1#8 := by
      apply BitVec.eq_of_toNat_eq
      rw [BitVec.toNat_add, BitVec.toNat_ofNat]
      omega
    rw [hk, hsp]
  · exact absurd ha h

theorem withPoppedSp_top {α : Type} (s : State) (k : State → Except MachineError α) (h : s.sp = 255#8) :
    withPoppedSp s k = .error (.addressOutOfRange 256) := by
  have h1 : s.poppedSp = 256 := by simp [State.poppedSp, h]
  rw [withPoppedSp, h1, withAddress_bad _ _ (by omega)]

/-! ### Ending an instruction -/

@[simp] theorem finish_ok (i : Instr) (s t : State) : finish i s (.ok t) = .next (commit i s t) := rfl
@[simp] theorem finish_error (i : Instr) (s : State) (e : MachineError) :
    finish i s (.error e) = .next (takeError e s) := rfl

/-- An instruction that ends is committed whole or its error is taken: nothing else (00_scope.md R6). -/
theorem finish_cases {i : Instr} {s t : State} {r : Except MachineError State} (h : finish i s r = .next t) :
    (∃ w, r = .ok w ∧ t = commit i s w) ∨ (∃ e, r = .error e ∧ t = takeError e s) := by
  cases r with
  | ok w => exact .inl ⟨w, rfl, (Host.Outcome.next.inj h).symm⟩
  | error e => exact .inr ⟨e, rfl, (Host.Outcome.next.inj h).symm⟩

/-! ### The step -/

theorem step_halted (s : State) (h : s.halted = true) : step s = .next s := by simp [step, h]

theorem step_running (s : State) (h : s.halted = false) :
    step s = match fetch s with | .ok i => exec i s | .error e => .next (takeError e s) := by
  unfold step
  exact (if_neg (by simp [h])).trans rfl

theorem fetch_ok {s : State} {i : Instr} {rest : List Byte} (h : decode s.fetchWindow = .ok (i, rest)) :
    fetch s = .ok i := by simp [fetch, h]

/-- A fetch gives the instruction its window decodes to, or the error of the failed decode. -/
theorem fetch_cases (s : State) :
    (∃ i rest, decode s.fetchWindow = .ok (i, rest) ∧ fetch s = .ok i) ∨
      (∃ d, decode s.fetchWindow = .error d ∧ fetch s = .error (fetchError s.pc d)) := by
  cases h : decode s.fetchWindow with
  | ok p => exact .inl ⟨p.1, p.2, by simp, by simp [fetch, h]⟩
  | error d => exact .inr ⟨d, rfl, by simp [fetch, h]⟩

/-! ### What the ports return -/

@[simp] theorem stepReturns_halted {s : State} (h : s.halted = true) (t : State) : stepReturns s t = none := by
  simp [stepReturns, h]

@[simp] theorem stepReturns_running {s : State} (h : s.halted = false) (t : State) : stepReturns s t = t.err := by
  simp [stepReturns, h]

@[simp] theorem loadReturns_takeError (e : MachineError) (s : State) : loadReturns (takeError e s) = some e := rfl

/-- An accepted load returns `ProgramTooLarge` with the length exactly when the program does not fit, else ok (20_memory.md R30,
R31). -/
theorem loadReturns_load {bytes : List Byte} {s t : State} (h : load bytes s = .next t) :
    loadReturns t = if bytes.length ≤ Config.memSize then none else some (.programTooLarge bytes.length) := by
  unfold load at h
  split at h
  · next hs =>
    subst hs
    split at h
    · next hl => rw [if_pos hl, ← Host.Outcome.next.inj h]; rfl
    · next hl => rw [if_neg hl, ← Host.Outcome.next.inj h]; rfl
  · cases h

end Sys2Proof.Machine
end

