-- ==== Sys2Proof/Laws/Exec.lean ====
section
/-! SUPPORT. What each instruction answers when its operands name registers: one equation per instruction and outcome, so that
no later proof unfolds a meaning. -/

namespace Sys2Proof.Machine

variable (s : State) (ra rb : RegIdx)

theorem exec_printConst : exec .printConst s = .next (commit .printConst s ((s.emit .printConst).advance .printConst)) := rfl

theorem exec_halt : exec .halt s = .next (commit .halt s (s.setHalted.advance .halt)) := rfl

theorem exec_ldi (imm : Byte) : exec (.ldi (regByte ra) imm) s =
    .next (commit (.ldi (regByte ra) imm) s ((s.setReg ra imm).advance (.ldi (regByte ra) imm))) := by
  simp only [exec, execLdi, withReg_regByte, finish_ok]

theorem exec_prn : exec (.prn (regByte ra)) s =
    .next (commit (.prn (regByte ra)) s ((s.emit (.printReg (s.reg ra))).advance (.prn (regByte ra)))) := by
  simp only [exec, execPrn, withReg_regByte, finish_ok]

theorem exec_add : exec (.add (regByte ra) (regByte rb)) s =
    .next (commit (.add (regByte ra) (regByte rb)) s
      ((s.setReg ra (addBytes (s.reg ra) (s.reg rb))).advance (.add (regByte ra) (regByte rb)))) := by
  simp only [exec, execAdd, withReg_regByte, finish_ok]

theorem exec_mul : exec (.mul (regByte ra) (regByte rb)) s =
    .next (commit (.mul (regByte ra) (regByte rb)) s
      ((s.setReg ra (mulBytes (s.reg ra) (s.reg rb))).advance (.mul (regByte ra) (regByte rb)))) := by
  simp only [exec, execMul, withReg_regByte, finish_ok]

theorem exec_cmp : exec (.cmp (regByte ra) (regByte rb)) s =
    .next (commit (.cmp (regByte ra) (regByte rb)) s
      ((s.setE (equalFlag (s.reg ra) (s.reg rb))).advance (.cmp (regByte ra) (regByte rb)))) := by
  simp only [exec, execCmp, withReg_regByte, finish_ok]

theorem exec_push (a : Byte) (h : (a.toNat : Int) = s.pushAddress) : exec (.push (regByte ra)) s =
    .next (commit (.push (regByte ra)) s
      (((s.setSp a).store a ((s.setSp a).reg ra)).advance (.push (regByte ra)))) := by
  simp only [exec, execPush, withReg_regByte, withPushedSp_at s _ a h, State.sp_setSp, finish_ok]

theorem exec_push_error (h : s.sp = 0#8) :
    exec (.push (regByte ra)) s = .next (takeError (.addressOutOfRange (-1)) s) := by
  simp only [exec, execPush, withReg_regByte, withPushedSp_zero s _ h, finish_error]

theorem exec_pop (h : (s.setReg ra s.top).sp ≠ 255#8) : exec (.pop (regByte ra)) s =
    .next (commit (.pop (regByte ra)) s
      (((s.setReg ra s.top).setSp ((s.setReg ra s.top).sp + 1#8)).advance (.pop (regByte ra)))) := by
  simp only [exec, execPop, withReg_regByte, withPoppedSp_below _ _ h, finish_ok]

theorem exec_pop_error (h : (s.setReg ra s.top).sp = 255#8) :
    exec (.pop (regByte ra)) s = .next (takeError (.addressOutOfRange 256) s) := by
  simp only [exec, execPop, withReg_regByte, withPoppedSp_top _ _ h, finish_error]

theorem exec_call (a : Byte) (hpc : s.pc.toNat + 2 ≤ 255) (h : (a.toNat : Int) = s.pushAddress) :
    exec (.call (regByte ra)) s = .next (commit (.call (regByte ra)) s
      (((s.setSp a).store a (BitVec.ofNat 8 (s.pc.toNat + 2))).jump ((s.setSp a).reg ra))) := by
  simp only [exec, execCall, withReg_regByte, Instr.length_call]
  rw [withAddress_ok _ _ (by omega) (by omega), withPushedSp_at s _ a h, State.sp_setSp]
  rfl

theorem exec_call_return_error (hpc : 255 < s.pc.toNat + 2) :
    exec (.call (regByte ra)) s = .next (takeError (.addressOutOfRange (s.pc.toNat + 2)) s) := by
  simp only [exec, execCall, withReg_regByte, Instr.length_call]
  rw [withAddress_bad _ _ (by omega)]
  rfl

theorem exec_call_stack_error (hpc : s.pc.toNat + 2 ≤ 255) (h : s.sp = 0#8) :
    exec (.call (regByte ra)) s = .next (takeError (.addressOutOfRange (-1)) s) := by
  simp only [exec, execCall, withReg_regByte, Instr.length_call]
  rw [withAddress_ok _ _ (by omega) (by omega), withPushedSp_zero s _ h]
  rfl

theorem exec_ret (h : s.sp ≠ 255#8) :
    exec .ret s = .next (commit .ret s ((s.setSp (s.sp + 1#8)).jump s.top)) := by
  simp only [exec, execRet, withPoppedSp_below _ _ h, finish_ok]

theorem exec_ret_error (h : s.sp = 255#8) :
    exec .ret s = .next (takeError (.addressOutOfRange 256) s) := by
  simp only [exec, execRet, withPoppedSp_top _ _ h, finish_error]

theorem exec_jmp : exec (.jmp (regByte ra)) s = .next (commit (.jmp (regByte ra)) s (s.jump (s.reg ra))) := by
  simp only [exec, execJmp, withReg_regByte, finish_ok]

theorem exec_jeq : exec (.jeq (regByte ra)) s = .next (commit (.jeq (regByte ra)) s
    (if s.flE then s.jump (s.reg ra) else s.advance (.jeq (regByte ra)))) := by
  simp only [exec, execJeq, withReg_regByte, finish_ok]

theorem exec_jne : exec (.jne (regByte ra)) s = .next (commit (.jne (regByte ra)) s
    (if s.flE then s.advance (.jne (regByte ra)) else s.jump (s.reg ra))) := by
  simp only [exec, execJne, withReg_regByte, finish_ok]

/-- The working copy instruction `i` leaves when it does not raise: what it does, said once for every instruction. -/
def Effect (i : Instr) (s w : State) : Prop :=
  match i with
  | .printConst => w = (s.emit .printConst).advance .printConst
  | .halt => w = s.setHalted.advance .halt
  | .ldi a imm => ∃ ra, a = regByte ra ∧ w = (s.setReg ra imm).advance (.ldi a imm)
  | .prn a => ∃ ra, a = regByte ra ∧ w = (s.emit (.printReg (s.reg ra))).advance (.prn a)
  | .add a b => ∃ ra rb, a = regByte ra ∧ b = regByte rb ∧
      w = (s.setReg ra (addBytes (s.reg ra) (s.reg rb))).advance (.add a b)
  | .mul a b => ∃ ra rb, a = regByte ra ∧ b = regByte rb ∧
      w = (s.setReg ra (mulBytes (s.reg ra) (s.reg rb))).advance (.mul a b)
  | .cmp a b => ∃ ra rb, a = regByte ra ∧ b = regByte rb ∧
      w = (s.setE (equalFlag (s.reg ra) (s.reg rb))).advance (.cmp a b)
  | .push a => ∃ ra p, a = regByte ra ∧ (p.toNat : Int) = s.pushAddress ∧
      w = ((s.setSp p).store p ((s.setSp p).reg ra)).advance (.push a)
  | .pop a => ∃ ra, a = regByte ra ∧ (s.setReg ra s.top).sp ≠ 255#8 ∧
      w = ((s.setReg ra s.top).setSp ((s.setReg ra s.top).sp + 1#8)).advance (.pop a)
  | .call a => ∃ ra p, a = regByte ra ∧ s.pc.toNat + 2 ≤ 255 ∧ (p.toNat : Int) = s.pushAddress ∧
      w = ((s.setSp p).store p (BitVec.ofNat 8 (s.pc.toNat + 2))).jump ((s.setSp p).reg ra)
  | .ret => s.sp ≠ 255#8 ∧ w = (s.setSp (s.sp + 1#8)).jump s.top
  | .jmp a => ∃ ra, a = regByte ra ∧ w = s.jump (s.reg ra)
  | .jeq a => ∃ ra, a = regByte ra ∧ w = if s.flE then s.jump (s.reg ra) else s.advance (.jeq a)
  | .jne a => ∃ ra, a = regByte ra ∧ w = if s.flE then s.advance (.jne a) else s.jump (s.reg ra)

/-- The errors instruction `i` can raise. -/
def Raises (i : Instr) (s : State) (e : MachineError) : Prop :=
  (∃ v, 8 ≤ v.toNat ∧ e = .registerOutOfRange v) ∨ e = .addressOutOfRange (-1) ∨ e = .addressOutOfRange 256 ∨
    (∃ a, i = .call a ∧ 255 < s.pc.toNat + 2 ∧ e = .addressOutOfRange (s.pc.toNat + 2))

/-- A register operand byte either names a register or is 8 or more. -/
theorem regByte_or_bad (v : Byte) : (∃ r, v = regByte r) ∨ 8 ≤ v.toNat := by
  rcases withReg_cases (α := Unit) v (fun _ => .ok ()) with ⟨r, hr, _⟩ | ⟨h, _⟩
  · exact .inl ⟨r, hr⟩
  · exact .inr h

/-- Either SP is 0 or the address below it is one of the memory. -/
theorem pushAddress_or_zero (s : State) : (∃ p : Byte, (p.toNat : Int) = s.pushAddress) ∨ s.sp = 0#8 := by
  rcases withPushedSp_cases s (α := Unit) (fun _ => .ok ()) with ⟨p, hp, _⟩ | ⟨h, _⟩
  · exact .inl ⟨p, hp⟩
  · exact .inr h

/-- What an instruction does: it commits its effect, or takes one of its errors and nothing else (00_scope.md R6). -/
theorem exec_cases (i : Instr) (s : State) :
    (∃ w, Effect i s w ∧ exec i s = .next (commit i s w)) ∨
      (∃ e, Raises i s e ∧ exec i s = .next (takeError e s)) := by
  have bad1 : ∀ v : Byte, 8 ≤ v.toNat → exec i s = .next (takeError (.registerOutOfRange v) s) →
      ∃ e, Raises i s e ∧ exec i s = .next (takeError e s) := fun v hv h => ⟨_, .inl ⟨v, hv, rfl⟩, h⟩
  cases i with
  | printConst => exact .inl ⟨_, rfl, rfl⟩
  | halt => exact .inl ⟨_, rfl, rfl⟩
  | ldi a imm =>
    rcases regByte_or_bad a with ⟨ra, rfl⟩ | ha
    · exact .inl ⟨_, ⟨ra, rfl, rfl⟩, exec_ldi s ra imm⟩
    · exact .inr (bad1 a ha (by simp only [exec, execLdi, withReg_bad a _ ha, finish_error]))
  | prn a =>
    rcases regByte_or_bad a with ⟨ra, rfl⟩ | ha
    · exact .inl ⟨_, ⟨ra, rfl, rfl⟩, exec_prn s ra⟩
    · exact .inr (bad1 a ha (by simp only [exec, execPrn, withReg_bad a _ ha, finish_error]))
  | add a b =>
    rcases regByte_or_bad a with ⟨ra, rfl⟩ | ha
    · rcases regByte_or_bad b with ⟨rb, rfl⟩ | hb
      · exact .inl ⟨_, ⟨ra, rb, rfl, rfl, rfl⟩, exec_add s ra rb⟩
      · exact .inr (bad1 b hb (by simp only [exec, execAdd, withReg_regByte, withReg_bad b _ hb, finish_error]))
    · exact .inr (bad1 a ha (by simp only [exec, execAdd, withReg_bad a _ ha, finish_error]))
  | mul a b =>
    rcases regByte_or_bad a with ⟨ra, rfl⟩ | ha
    · rcases regByte_or_bad b with ⟨rb, rfl⟩ | hb
      · exact .inl ⟨_, ⟨ra, rb, rfl, rfl, rfl⟩, exec_mul s ra rb⟩
      · exact .inr (bad1 b hb (by simp only [exec, execMul, withReg_regByte, withReg_bad b _ hb, finish_error]))
    · exact .inr (bad1 a ha (by simp only [exec, execMul, withReg_bad a _ ha, finish_error]))
  | cmp a b =>
    rcases regByte_or_bad a with ⟨ra, rfl⟩ | ha
    · rcases regByte_or_bad b with ⟨rb, rfl⟩ | hb
      · exact .inl ⟨_, ⟨ra, rb, rfl, rfl, rfl⟩, exec_cmp s ra rb⟩
      · exact .inr (bad1 b hb (by simp only [exec, execCmp, withReg_regByte, withReg_bad b _ hb, finish_error]))
    · exact .inr (bad1 a ha (by simp only [exec, execCmp, withReg_bad a _ ha, finish_error]))
  | push a =>
    rcases regByte_or_bad a with ⟨ra, rfl⟩ | ha
    · rcases pushAddress_or_zero s with ⟨p, hp⟩ | h0
      · exact .inl ⟨_, ⟨ra, p, rfl, hp, rfl⟩, exec_push s ra p hp⟩
      · exact .inr ⟨_, .inr (.inl rfl), exec_push_error s ra h0⟩
    · exact .inr (bad1 a ha (by simp only [exec, execPush, withReg_bad a _ ha, finish_error]))
  | pop a =>
    rcases regByte_or_bad a with ⟨ra, rfl⟩ | ha
    · by_cases h : (s.setReg ra s.top).sp = 255#8
      · exact .inr ⟨_, .inr (.inr (.inl rfl)), exec_pop_error s ra h⟩
      · exact .inl ⟨_, ⟨ra, rfl, h, rfl⟩, exec_pop s ra h⟩
    · exact .inr (bad1 a ha (by simp only [exec, execPop, withReg_bad a _ ha, finish_error]))
  | call a =>
    rcases regByte_or_bad a with ⟨ra, rfl⟩ | ha
    · by_cases hpc : s.pc.toNat + 2 ≤ 255
      · rcases pushAddress_or_zero s with ⟨p, hp⟩ | h0
        · exact .inl ⟨_, ⟨ra, p, rfl, hpc, hp, rfl⟩, exec_call s ra p hpc hp⟩
        · exact .inr ⟨_, .inr (.inl rfl), exec_call_stack_error s ra hpc h0⟩
      · exact .inr ⟨_, .inr (.inr (.inr ⟨_, rfl, by omega, rfl⟩)), exec_call_return_error s ra (by omega)⟩
    · exact .inr (bad1 a ha (by simp only [exec, execCall, withReg_bad a _ ha, finish_error]))
  | ret =>
    by_cases h : s.sp = 255#8
    · exact .inr ⟨_, .inr (.inr (.inl rfl)), exec_ret_error s h⟩
    · exact .inl ⟨_, ⟨h, rfl⟩, exec_ret s h⟩
  | jmp a =>
    rcases regByte_or_bad a with ⟨ra, rfl⟩ | ha
    · exact .inl ⟨_, ⟨ra, rfl, rfl⟩, exec_jmp s ra⟩
    · exact .inr (bad1 a ha (by simp only [exec, execJmp, withReg_bad a _ ha, finish_error]))
  | jeq a =>
    rcases regByte_or_bad a with ⟨ra, rfl⟩ | ha
    · exact .inl ⟨_, ⟨ra, rfl, rfl⟩, exec_jeq s ra⟩
    · exact .inr (bad1 a ha (by simp only [exec, execJeq, withReg_bad a _ ha, finish_error]))
  | jne a =>
    rcases regByte_or_bad a with ⟨ra, rfl⟩ | ha
    · exact .inl ⟨_, ⟨ra, rfl, rfl⟩, exec_jne s ra⟩
    · exact .inr (bad1 a ha (by simp only [exec, execJne, withReg_bad a _ ha, finish_error]))

end Sys2Proof.Machine
end

