-- ==== Sys2Proof/Laws/PerInstr.lean ====
section
/-! SUPPORT. Facts about every instruction as syntax, one lemma per constructor. -/

namespace Sys2Proof.Laws.Encoding

/-- The bytes of the instruction agree with its row of the opcode map: its opcode byte selects the row of its kind, as many
operand bytes follow as bits 7-6 say (30_encoding.md R36, R41, R42). -/
def Statement (i : Instr) : Prop :=
  (encode i).length = i.length ∧
  ∃ row, lookupOpcode i.op.opcode = some row ∧ row.op = i.op ∧ row.operands = i.operands.length

theorem printConst : Statement .printConst := ⟨(Instr.length_printConst).symm, _, rfl, rfl, rfl⟩
theorem halt : Statement .halt := ⟨(Instr.length_halt).symm, _, rfl, rfl, rfl⟩
theorem ldi (a imm : Byte) : Statement (.ldi a imm) := ⟨(Instr.length_ldi a imm).symm, _, rfl, rfl, rfl⟩
theorem prn (a : Byte) : Statement (.prn a) := ⟨(Instr.length_prn a).symm, _, rfl, rfl, rfl⟩
theorem add (a b : Byte) : Statement (.add a b) := ⟨(Instr.length_add a b).symm, _, rfl, rfl, rfl⟩
theorem mul (a b : Byte) : Statement (.mul a b) := ⟨(Instr.length_mul a b).symm, _, rfl, rfl, rfl⟩
theorem cmp (a b : Byte) : Statement (.cmp a b) := ⟨(Instr.length_cmp a b).symm, _, rfl, rfl, rfl⟩
theorem push (a : Byte) : Statement (.push a) := ⟨(Instr.length_push a).symm, _, rfl, rfl, rfl⟩
theorem pop (a : Byte) : Statement (.pop a) := ⟨(Instr.length_pop a).symm, _, rfl, rfl, rfl⟩
theorem call (a : Byte) : Statement (.call a) := ⟨(Instr.length_call a).symm, _, rfl, rfl, rfl⟩
theorem ret : Statement .ret := ⟨(Instr.length_ret).symm, _, rfl, rfl, rfl⟩
theorem jmp (a : Byte) : Statement (.jmp a) := ⟨(Instr.length_jmp a).symm, _, rfl, rfl, rfl⟩
theorem jeq (a : Byte) : Statement (.jeq a) := ⟨(Instr.length_jeq a).symm, _, rfl, rfl, rfl⟩
theorem jne (a : Byte) : Statement (.jne a) := ⟨(Instr.length_jne a).symm, _, rfl, rfl, rfl⟩

end Sys2Proof.Laws.Encoding
end

