-- ==== Sys2Proof/Machine/Assembly.lean ====
section
/-! DEFINITION. The written form of an instruction (30_encoding.md R45): no behaviour depends on it. -/

namespace Sys2Proof.Machine

/-- The mnemonic of an instruction kind (30_encoding.md R42). -/
def mnemonic : Op → String
  | .printConst => "PRINT_CONST"
  | .halt => "HALT"
  | .ldi => "LDI"
  | .prn => "PRN"
  | .add => "ADD"
  | .mul => "MUL"
  | .cmp => "CMP"
  | .push => "PUSH"
  | .pop => "POP"
  | .call => "CALL"
  | .ret => "RET"
  | .jmp => "JMP"
  | .jeq => "JEQ"
  | .jne => "JNE"

/-- A register operand as text, `R0`..`R7` for the bytes that name a register (R45). -/
def regText (v : Byte) : String := "R" ++ Nat.repr v.toNat

/-- An instruction as R45 writes it, an immediate in decimal (log 18). -/
def assembly : Instr → String
  | .printConst => mnemonic .printConst
  | .halt => mnemonic .halt
  | .ldi a imm => mnemonic .ldi ++ " " ++ regText a ++ ", " ++ Nat.repr imm.toNat
  | .prn a => mnemonic .prn ++ " " ++ regText a
  | .add a b => mnemonic .add ++ " " ++ regText a ++ ", " ++ regText b
  | .mul a b => mnemonic .mul ++ " " ++ regText a ++ ", " ++ regText b
  | .cmp a b => mnemonic .cmp ++ " " ++ regText a ++ ", " ++ regText b
  | .push a => mnemonic .push ++ " " ++ regText a
  | .pop a => mnemonic .pop ++ " " ++ regText a
  | .call a => mnemonic .call ++ " " ++ regText a
  | .ret => mnemonic .ret
  | .jmp a => mnemonic .jmp ++ " " ++ regText a
  | .jeq a => mnemonic .jeq ++ " " ++ regText a
  | .jne a => mnemonic .jne ++ " " ++ regText a

end Sys2Proof.Machine
end

