-- ==== Sys2Proof/Tests/Slice0.lean ====
section
/-! SUPPORT. Tests against the spec's own tables and examples (95_test_vectors.md ids in the comments), the smoke tests of
WellFormed and Decode, and a witness for the hypotheses of every statement. -/

namespace Sys2Proof.Tests

open Sys2Proof Sys2Proof.Machine

/-- A core with the given pc, SP and x[0], x[1], and `bytes` in memory at pc. -/
def core0 (pc : PcWord) (sp x0 x1 : Byte) (bytes : List Byte) : State :=
  { State.reset with pc := pc, regs := #v[x0, x1, 0#8, 12#8, 0#8, 0#8, 0#8, sp], mem := Memory.writeBytes [] pc.toNat bytes }

/-- The same with one more cell set. -/
def core1 (pc : PcWord) (sp x0 x1 : Byte) (bytes : List Byte) (a v : Byte) : State :=
  { core0 pc sp x0 x1 bytes with mem := (core0 pc sp x0 x1 bytes).mem.write a v }

/-- The state after one step. -/
def after (s : State) : State :=
  match step s with
  | .next t => t
  | .fault f => nomatch f
  | .refused _ => s

/-- The state an outcome holds, `s` where it holds none. -/
def stateOr (s : State) : Host.Outcome State Fault Refusal → State
  | .next t => t
  | .fault f => nomatch f
  | .refused _ => s

/-! ### WellFormed refuses each ill-formed operand -/

theorem test_wf_refuses_a : (Instr.prn 8#8).wellFormed = false := by decide
theorem test_wf_refuses_a_of_two : (Instr.add 9#8 0#8).wellFormed = false := by decide
theorem test_wf_refuses_b : (Instr.add 0#8 9#8).wellFormed = false := by decide
theorem test_wf_refuses_ldi_a : (Instr.ldi 255#8 0#8).wellFormed = false := by decide
theorem test_wf_admits_any_immediate : (Instr.ldi 7#8 255#8).wellFormed = true := by decide
theorem test_wf_admits_no_operands : Instr.ret.wellFormed = true := by decide

/-! ### Decode: every constructor from its bits in R42's table -/

theorem test_decode_printConst : decode [0b00000010#8] = .ok (.printConst, []) := rfl
theorem test_decode_halt : decode [0b00000001#8] = .ok (.halt, []) := rfl
theorem test_decode_ldi : decode [0b10000010#8, 1#8, 37#8] = .ok (.ldi 1#8 37#8, []) := rfl
theorem test_decode_prn : decode [0b01000111#8, 1#8] = .ok (.prn 1#8, []) := rfl
theorem test_decode_add : decode [0b10100000#8, 0#8, 1#8] = .ok (.add 0#8 1#8, []) := rfl
theorem test_decode_mul : decode [0b10100010#8, 0#8, 1#8] = .ok (.mul 0#8 1#8, []) := rfl
theorem test_decode_cmp : decode [0b10100111#8, 0#8, 2#8] = .ok (.cmp 0#8 2#8, []) := rfl
theorem test_decode_push : decode [0b01000101#8, 7#8] = .ok (.push 7#8, []) := rfl
theorem test_decode_pop : decode [0b01000110#8, 2#8] = .ok (.pop 2#8, []) := rfl
theorem test_decode_call : decode [0b01010000#8, 1#8] = .ok (.call 1#8, []) := rfl
theorem test_decode_ret : decode [0b00010001#8, 9#8] = .ok (.ret, [9#8]) := rfl
theorem test_decode_jmp : decode [0b01010100#8, 3#8] = .ok (.jmp 3#8, []) := rfl
theorem test_decode_jeq : decode [0b01010101#8, 3#8] = .ok (.jeq 3#8, []) := rfl
theorem test_decode_jne : decode [0b01010110#8, 3#8] = .ok (.jne 3#8, []) := rfl
theorem test_decode_illegal : decode [0xA1#8, 0#8, 1#8] = .error (.illegalOpcode 0xA1#8) := rfl
theorem test_decode_truncated : decode [0x82#8, 1#8] = .error (.truncated 2) := rfl
/-- No two rows share a byte, and bits 5 and 4 are the two flags of the row (30_encoding.md R37, R42). -/
theorem test_map_bytes_distinct : (opcodeMap.map OpcodeRow.byte).Nodup := by decide
theorem test_map_flags : ∀ row ∈ opcodeMap,
    row.aluFlag = row.byte.getLsbD 5 ∧ row.setPcFlag = row.byte.getLsbD 4 ∧ row.operands = operandCount row.byte := by decide
theorem test_map_formats : ∀ row ∈ opcodeMap,
    row.operands = (match row.format with | .Z => 0 | .R => 1 | .RR => 2 | .RI => 2) := by decide
theorem test_table_word : decodeTableWord 24 0x250182 = some (.ldi 1#8 37#8) := by decide
theorem test_table_word_masks : decodeTableWord 8 0x010147 = some (.prn 0#8) := by decide
theorem test_fetch_word_runs : (after (State.reset.withFetchWord 24 0x250182)).reg 1 = 37#8 := by decide
theorem test_assembly : assembly (.ldi 1#8 37#8) = "LDI R1, 37" := by decide +kernel

/-! ### One step, from the vectors -/

/-- B1 -/
theorem test_printConst : (after (core0 0#9 0xF4#8 0#8 0#8 [0x02#8])).output = [.printConst] := by decide
/-- B2 -/
theorem test_printConst_at_255 : (after (core0 255#9 0xF4#8 0#8 0#8 [0x02#8])).pc = 256#9 := by decide
/-- B3 -/
theorem test_halt : (after (core0 5#9 0xF4#8 0#8 0#8 [0x01#8])).halted = true ∧
    (after (core0 5#9 0xF4#8 0#8 0#8 [0x01#8])).pc = 6#9 ∧ (after (core0 5#9 0xF4#8 0#8 0#8 [0x01#8])).err = none := by decide
/-- B7 -/
theorem test_ldi_sp : (after (core0 10#9 0xF4#8 0#8 0#8 [0x82#8, 7#8, 0x10#8])).sp = 0x10#8 := by decide
/-- B9 -/
theorem test_ldi_bad_register : (after (core0 10#9 0xF4#8 0#8 0#8 [0x82#8, 8#8, 5#8])).err = some (.registerOutOfRange 8#8) := by decide
/-- B11 -/
theorem test_prn : (after (core0 3#9 0xF4#8 0#8 37#8 [0x47#8, 1#8])).output = [.printReg 37#8] := by decide
/-- B13 -/
theorem test_prn_bad_register : (after (core0 3#9 0xF4#8 0#8 37#8 [0x47#8, 0x0A#8])).output = [] := by decide
/-- A1 -/
theorem test_add_wraps : (after (core0 10#9 0xF4#8 200#8 100#8 [0xA0#8, 0#8, 1#8])).reg 0 = 44#8 := by decide
/-- A11 -/
theorem test_add_checks_a_first : (after (core0 10#9 0xF4#8 0#8 0#8 [0xA0#8, 9#8, 0xC8#8])).err = some (.registerOutOfRange 9#8) := by decide
/-- A5 -/
theorem test_mul : (after (core0 10#9 0xF4#8 8#8 9#8 [0xA2#8, 0#8, 1#8])).reg 0 = 72#8 := by decide
/-- A6 -/
theorem test_mul_wraps : (after (core0 10#9 0xF4#8 255#8 255#8 [0xA2#8, 0#8, 1#8])).reg 0 = 1#8 := by decide
/-- A9 -/
theorem test_cmp_same : (after (core0 10#9 0xF4#8 0#8 0#8 [0xA7#8, 4#8, 4#8])).flE = true := by decide
/-- A8 -/
theorem test_cmp_clears : (after { core0 10#9 0xF4#8 2#8 3#8 [0xA7#8, 0#8, 1#8] with flE := true }).flE = false := by decide
/-- S2 -/
theorem test_push_sp : (after (core0 10#9 0xF4#8 0#8 0#8 [0x45#8, 7#8])).mem.read 0xF3#8 = 0xF3#8 := by decide
/-- S3 -/
theorem test_push_at_zero : after (core0 10#9 0#8 9#8 0#8 [0x45#8, 0#8]) =
    { core0 10#9 0#8 9#8 0#8 [0x45#8, 0#8] with halted := true, err := some (.addressOutOfRange (-1)) } := by decide
/-- S6 -/
theorem test_pop_sp : (after (core1 10#9 0xF3#8 0#8 0#8 [0x46#8, 7#8] 0xF3#8 0x20#8)).sp = 0x21#8 := by decide
/-- S7 -/
theorem test_pop_sp_error : (after (core1 10#9 0xF3#8 0#8 0#8 [0x46#8, 7#8] 0xF3#8 0xFF#8)).err = some (.addressOutOfRange 256) := by decide
/-- C1 -/
theorem test_call : (after (core0 6#9 0xF4#8 0#8 11#8 [0x50#8, 1#8])).mem.read 0xF3#8 = 8#8 ∧
    (after (core0 6#9 0xF4#8 0#8 11#8 [0x50#8, 1#8])).pc = 11#9 := by decide
/-- C4 -/
theorem test_call_sp : (after (core0 10#9 0xF4#8 0#8 0#8 [0x50#8, 7#8])).pc = 0xF3#9 := by decide
/-- C6 -/
theorem test_ret : (after (core1 14#9 0xF3#8 0#8 0#8 [0x11#8] 0xF3#8 8#8)).pc = 8#9 ∧
    (after (core1 14#9 0xF3#8 0#8 0#8 [0x11#8] 0xF3#8 8#8)).sp = 0xF4#8 := by decide
/-- C7 -/
theorem test_ret_at_255 : (after (core0 10#9 0xFF#8 0#8 0#8 [0x11#8])).err = some (.addressOutOfRange 256) := by decide
/-- J1 -/
theorem test_jmp : (after (core0 20#9 0xF4#8 0#8 0#8 [0x54#8, 3#8])).pc = 12#9 := by decide
/-- J3 -/
theorem test_jeq_taken : (after { core0 20#9 0xF4#8 0#8 0#8 [0x55#8, 3#8] with flE := true }).pc = 12#9 := by decide
/-- J8 -/
theorem test_jeq_checks_register : (after (core0 20#9 0xF4#8 0#8 0#8 [0x55#8, 9#8])).err = some (.registerOutOfRange 9#8) := by decide
/-- J5 -/
theorem test_jne_taken : (after (core0 20#9 0xF4#8 0#8 0#8 [0x56#8, 3#8])).pc = 12#9 := by decide
/-- J6 -/
theorem test_jne_not_taken : (after { core0 20#9 0xF4#8 0#8 0#8 [0x56#8, 3#8] with flE := true }).pc = 22#9 := by decide
/-- X2 -/
theorem test_illegal_at_255 : (after (core0 255#9 0xF4#8 0#8 0#8 [0xFF#8])).err = some (.illegalInstruction 0xFF#8 255#9) := by decide
/-- X4 -/
theorem test_fetch_at_256 : (after (core0 256#9 0xF4#8 0#8 0#8 [])).err = some (.addressOutOfRange 256) := by decide
/-- B10 -/
theorem test_operand_fetch_at_256 : (after (core0 254#9 0xF4#8 0#8 0#8 [0x82#8, 1#8])).err = some (.addressOutOfRange 256) := by decide
/-- P3 of the programs, step 3: the snapshot of CALL -/
theorem test_trace : ((after (core0 6#9 0xF4#8 5#8 11#8 [0x50#8, 1#8])).trace.map fun x => (x.pc, x.opcode, x.operands)) =
    [(6#9, 0x50#8, [1#8])] := by decide
/-- The codes of 60_exceptions.md R73's table. -/
theorem test_codes : (MachineError.illegalInstruction 0#8 0#9).code = 1 ∧ (MachineError.addressOutOfRange 256).code = 2 ∧
    (MachineError.registerOutOfRange 8#8).code = 3 ∧ (MachineError.programTooLarge 300).code = 4 ∧
    (MachineError.unsupportedAluOp .add).code = 5 := by decide
/-- R82's example -/
theorem test_digits : decimalDigits 37#8 = [3, 7] ∧ decimalDigits 0#8 = [0] ∧ decimalDigits 204#8 = [2, 0, 4] := by decide
/-- L2 and R30: cells past the program keep their value -/
theorem test_load : (stateOr State.reset (load [0x82#8, 1#8] State.reset)).mem = [(0, 0x82#8), (1, 1#8)] := by decide
/-- L3 and L1: what the load port returns -/
theorem test_load_returns_ok : loadReturns (stateOr State.reset (load [] State.reset)) = none := by decide
theorem test_load_returns_error (t : State) (h : load (List.replicate 300 0#8) State.reset = .next t) :
    loadReturns t = some (.programTooLarge 300) := by
  rw [loadReturns_load h, List.length_replicate]; rfl
/-- P1, a run of its three instructions with fuel to spare -/
theorem test_run_P1 : ∃ t, run 4 (core0 0#9 0xF4#8 0#8 0#8 [0x82#8, 1#8, 0x25#8, 0x47#8, 1#8, 1#8]) = .ok t ∧
    t.output = [.printReg 37#8] ∧ t.pc = 6#9 := ⟨_, rfl, by decide, by decide⟩

/-! ### Witnesses: states that meet the hypotheses of the statements, a theorem for each statement that has any -/

/-- A running core about to push, that meets the invariant. -/
def pushing : State := core0 10#9 0xF4#8 44#8 0#8 [0x45#8, 0#8]

theorem inv_core0 (pc : PcWord) (sp x0 x1 : Byte) (bytes : List Byte) (h : pc.toNat ≤ 256) :
    (core0 pc sp x0 x1 bytes).Inv where
  pc_le := h
  mem_wf := Memory.writeBytes_wf [] _ _ rfl
  err_halted := fun hc => absurd rfl hc
  err_occurs := fun _ hc => nomatch hc
  trace_occurs := fun _ hx => nomatch hx

theorem witness_inv : pushing.Inv := inv_core0 _ _ _ _ _ (by decide)
theorem witness_StepKeepsTheInvariant : pushing.Inv ∧ step pushing = .next (after pushing) := ⟨witness_inv, rfl⟩
theorem witness_LoadKeepsTheInvariant : State.reset.Inv ∧ ∃ t, load [1#8] State.reset = .next t :=
  ⟨⟨by decide, by decide, fun h => absurd rfl h, fun _ h => (nomatch h), fun _ h => (nomatch h)⟩, _, rfl⟩
theorem witness_EncodeOfDecodeIsTheBytesRead : decode [0xA0#8, 0#8, 1#8, 5#8] = .ok (.add 0#8 1#8, [5#8]) := rfl
theorem witness_Runs : Runs pushing (.push 0#8) := ⟨rfl, [0#8], rfl⟩
theorem witness_StepRunsTheDecodedInstruction : Runs pushing (.push 0#8) ∧ step pushing = exec (.push 0#8) pushing :=
  ⟨witness_Runs, rfl⟩
theorem holds_of_window (s : State) (bs : List Byte) (h : s.mem.bytesFrom s.pc.toNat bs.length = bs)
    (hp : s.pc.toNat + bs.length ≤ 256) : HoldsBytes s s.pc.toNat bs := by
  have key : ∀ (n a : Nat) (k : Nat) (v : Byte), a + n ≤ 256 → (s.mem.bytesFrom a n)[k]? = some v →
      a + k < 256 ∧ s.mem.read (BitVec.ofNat 8 (a + k)) = v := by
    intro n
    induction n with
    | zero => intro a k v _ hk; simp [Memory.bytesFrom] at hk
    | succ n ih =>
      intro a k v ha hk
      have hlt : a < Config.memSize := by simp only [Config.memSize]; omega
      simp only [Memory.bytesFrom, if_pos hlt] at hk
      cases k with
      | zero => exact ⟨by omega, by simpa using hk⟩
      | succ k =>
        have hr := ih (a + 1) k v (by omega) (by simpa using hk)
        rw [show a + (k + 1) = a + 1 + k by omega]
        exact hr
  intro k v hk
  exact key bs.length s.pc.toNat k v hp (by rw [h]; exact hk)
/-- LDI in the last three cells, the highest address it fits. -/
theorem witness_StepRunsTheInstructionStoredAtPc :
    (core0 253#9 0xF4#8 0#8 0#8 [0x82#8, 1#8, 37#8]).halted = false ∧
    HoldsBytes (core0 253#9 0xF4#8 0#8 0#8 [0x82#8, 1#8, 37#8]) 253 (encode (.ldi 1#8 37#8)) :=
  ⟨rfl, holds_of_window (core0 253#9 0xF4#8 0#8 0#8 [0x82#8, 1#8, 37#8]) _ (by decide) (by decide)⟩
theorem witness_HaltedStepChangesNothing : ({ pushing with halted := true } : State).halted = true := rfl
theorem witness_OpcodeFetchPastMemoryRaises : (core0 256#9 0#8 0#8 0#8 []).halted = false ∧
    256 ≤ (core0 256#9 0#8 0#8 0#8 []).pc.toNat := by decide
theorem witness_IllegalOpcodeRaisesBeforeOperandFetch :
    (core0 255#9 0#8 0#8 0#8 [0xFF#8]).halted = false ∧ (core0 255#9 0#8 0#8 0#8 [0xFF#8]).pc.toNat < 256 ∧
    (core0 255#9 0#8 0#8 0#8 [0xFF#8]).mem.read (BitVec.ofNat 8 255) ∉
      [0x02#8, 0x01#8, 0x82#8, 0x47#8, 0xA0#8, 0xA2#8, 0xA7#8, 0x45#8, 0x46#8, 0x50#8, 0x11#8, 0x54#8, 0x55#8, 0x56#8] := by
  decide
/-- The second operand byte is past the memory (a = 254), and the first is (a = 255). -/
theorem witness_OperandFetchPastMemoryRaises :
    (lookupOpcode ((core0 254#9 0#8 0#8 0#8 [0xA0#8, 9#8]).mem.read 254#8) = some ⟨.add, 0xA0#8, 2, true, false, .RR⟩ ∧
      256 ≤ (core0 254#9 0#8 0#8 0#8 [0xA0#8, 9#8]).pc.toNat + 2) ∧
    (lookupOpcode ((core0 255#9 0#8 0#8 0#8 [0x50#8]).mem.read 255#8) = some ⟨.call, 0x50#8, 1, false, true, .R⟩ ∧
      256 ≤ (core0 255#9 0#8 0#8 0#8 [0x50#8]).pc.toNat + 1) := by decide
theorem witness_RegisterOperandAboveSevenRaises :
    (Instr.add 8#8 200#8).regOperands.find? (fun b => decide (8 ≤ b.toNat)) = some 8#8 ∧
    (Instr.add 7#8 8#8).regOperands.find? (fun b => decide (8 ≤ b.toNat)) = some 8#8 := by decide
/-- Both outcomes of StepCommitsOrTakesOneError and HaltedIsSetOnlyByHaltOrError are met: a push commits, and one at SP = 0 and
a HALT set HALTED. -/
theorem witness_StepCommitsOrTakesOneError :
    (pushing.Inv ∧ pushing.halted = false ∧ step pushing = .next (after pushing) ∧ (after pushing).err = none) ∧
    ((core0 10#9 0#8 0#8 0#8 [0x45#8, 0#8]).Inv ∧
      step (core0 10#9 0#8 0#8 0#8 [0x45#8, 0#8]) =
        .next (takeError (.addressOutOfRange (-1)) (core0 10#9 0#8 0#8 0#8 [0x45#8, 0#8]))) :=
  ⟨⟨witness_inv, rfl, rfl, by decide⟩, inv_core0 _ _ _ _ _ (by decide), rfl⟩
theorem witness_HaltedIsSetOnlyByHaltOrError :
    (step (core0 5#9 0#8 0#8 0#8 [1#8]) = .next (after (core0 5#9 0#8 0#8 0#8 [1#8])) ∧
      (core0 5#9 0#8 0#8 0#8 [1#8]).halted = false ∧ (after (core0 5#9 0#8 0#8 0#8 [1#8])).halted = true) ∧
    step { pushing with halted := true } = .next { pushing with halted := true } := ⟨⟨rfl, rfl, by decide⟩, rfl⟩
theorem witness_TraceSnapshotShowsTheFetchedBytes : step pushing = .next (after pushing) ∧
    (after pushing).trace = pushing.trace ++ [⟨10#9, 0x45#8, [0#8], (after pushing).regs⟩] := ⟨rfl, by decide⟩
/-- PUSH: the lowest SP that pushes, the highest, and the SP that raises. -/
theorem witness_PushStoresBelowTheStackPointer :
    (core0 10#9 1#8 9#8 0#8 []).mem.wf = true ∧ ((0#8 : Byte).toNat : Int) = (core0 10#9 1#8 9#8 0#8 []).pushAddress ∧
    ((254#8 : Byte).toNat : Int) = (core0 10#9 255#8 9#8 0#8 []).pushAddress ∧ (core0 10#9 0#8 9#8 0#8 []).sp = 0#8 := by decide
/-- POP: for an ordinary register and for R7, one state that completes and one that raises. -/
theorem witness_PopLoadsAndRaisesTheStackPointer :
    (core0 10#9 254#8 0#8 0#8 []).sp ≠ 255#8 ∧ (core0 10#9 255#8 0#8 0#8 []).sp = 255#8 ∧
    (core1 10#9 0xF3#8 0#8 0#8 [] 0xF3#8 254#8).mem.read 0xF3#8 ≠ 255#8 ∧
    (core1 10#9 0xF3#8 0#8 0#8 [] 0xF3#8 255#8).mem.read 0xF3#8 = 255#8 := by decide
/-- CALL: the first pc whose return address does not fit, and at the last that does, the two stack cases. -/
theorem witness_CallPushesTheReturnAddress :
    (255 < (core0 254#9 0#8 0#8 0#8 []).pc.toNat + 2) ∧
    ((core0 253#9 0#8 0#8 0#8 []).pc.toNat + 2 ≤ 255 ∧ (core0 253#9 0#8 0#8 0#8 []).sp = 0#8) ∧
    ((core0 253#9 1#8 0#8 0#8 []).mem.wf = true ∧ (core0 253#9 1#8 0#8 0#8 []).pc.toNat + 2 ≤ 255 ∧
      ((0#8 : Byte).toNat : Int) = (core0 253#9 1#8 0#8 0#8 []).pushAddress) := by decide
theorem witness_RetPopsThePc : (core0 10#9 254#8 0#8 0#8 []).sp ≠ 255#8 ∧ (core0 10#9 255#8 0#8 0#8 []).sp = 255#8 := by decide
/-- Both values of FL, for JEQ and JNE. -/
theorem witness_JeqJumpsWhenEqual : ({ pushing with flE := true } : State).flE = true ∧ pushing.flE = false := by decide
theorem witness_JneJumpsWhenNotEqual : pushing.flE = false ∧ ({ pushing with flE := true } : State).flE = true := by decide
/-- FL set before, cleared by CMP's first clause; a PUSH for its second. -/
theorem witness_CmpSetsTheEqualFlag : (Instr.push 0#8).op ≠ .cmp ∧ exec (.push 0#8) pushing = .next (after pushing) :=
  ⟨by decide, rfl⟩
theorem witness_HaltStopsTheCore : pushing.err = none := rfl
theorem witness_FlagIsWrittenOnlyByCmp :
    step (core0 10#9 0#8 3#8 3#8 [0xA7#8, 0#8, 1#8]) = .next (after (core0 10#9 0#8 3#8 3#8 [0xA7#8, 0#8, 1#8])) ∧
    (after (core0 10#9 0#8 3#8 3#8 [0xA7#8, 0#8, 1#8])).flE ≠ (core0 10#9 0#8 3#8 3#8 [0xA7#8, 0#8, 1#8]).flE :=
  ⟨rfl, by decide⟩
theorem witness_FlagIsReadOnlyByJeqAndJne : (Instr.jmp 0#8).op ≠ .jeq ∧ (Instr.jmp 0#8).op ≠ .jne := by decide
theorem witness_RegistersChangeOnlyAsNamed : step pushing = .next (after pushing) ∧ (after pushing).reg 7 ≠ pushing.reg 7 :=
  ⟨rfl, by decide⟩
theorem witness_MemoryChangesOnlyAtThePushedCell : pushing.Inv ∧ step pushing = .next (after pushing) ∧
    (after pushing).mem.read 0xF3#8 ≠ pushing.mem.read 0xF3#8 := ⟨witness_inv, rfl, by decide⟩
theorem witness_OutputComesOnlyFromPrints : step (core0 3#9 0#8 0#8 0#8 [0x47#8, 1#8]) =
    .next (after (core0 3#9 0#8 0#8 0#8 [0x47#8, 1#8])) := rfl
/-- The hypotheses of PcAdvancesByLengthOrToATarget. -/
def CommitsIn (s : State) (i : Instr) : Prop :=
  s.halted = false ∧ Runs s i ∧ step s = .next (after s) ∧ (after s).trace ≠ s.trace

/-! The clauses of PcAdvancesByLengthOrToATarget, each at the highest pc it completes at: a plain advance at 255, JEQ (vector J7)
and JNE not taken, JMP, JEQ and JNE taken at 254, CALL R7 at 253, RET at 255. -/

theorem witness_PcAdvancesByLengthOrToATarget :
    CommitsIn (core0 255#9 0#8 0#8 0#8 [0x02#8]) .printConst ∧
    (Instr.printConst).op.opcode.getLsbD 4 = false :=
  ⟨⟨rfl, ⟨rfl, _, rfl⟩, rfl, by decide⟩, by decide⟩
theorem witness_PcAdvancesByLengthOrToATarget_jeq_falls :
    CommitsIn (core0 254#9 0#8 5#8 0#8 [0x55#8, 0#8]) (.jeq 0#8) :=
  ⟨rfl, ⟨rfl, _, rfl⟩, rfl, by decide⟩
theorem witness_PcAdvancesByLengthOrToATarget_jne_falls :
    CommitsIn { core0 254#9 0#8 5#8 0#8 [0x56#8, 0#8] with flE := true } (.jne 0#8) :=
  ⟨rfl, ⟨rfl, _, rfl⟩, rfl, by decide⟩
theorem witness_PcAdvancesByLengthOrToATarget_jmp :
    CommitsIn (core0 254#9 0#8 5#8 0#8 [0x54#8, 0#8]) (.jmp (regByte 0)) :=
  ⟨rfl, ⟨rfl, _, rfl⟩, rfl, by decide⟩
theorem witness_PcAdvancesByLengthOrToATarget_jeq_taken :
    CommitsIn { core0 254#9 0#8 5#8 0#8 [0x55#8, 0#8] with flE := true } (.jeq (regByte 0)) :=
  ⟨rfl, ⟨rfl, _, rfl⟩, rfl, by decide⟩
theorem witness_PcAdvancesByLengthOrToATarget_jne_taken :
    CommitsIn (core0 254#9 0#8 5#8 0#8 [0x56#8, 0#8]) (.jne (regByte 0)) :=
  ⟨rfl, ⟨rfl, _, rfl⟩, rfl, by decide⟩
theorem witness_PcAdvancesByLengthOrToATarget_call :
    CommitsIn (core0 253#9 0xF4#8 0#8 0#8 [0x50#8, 7#8]) (.call (regByte 7)) :=
  ⟨rfl, ⟨rfl, _, rfl⟩, rfl, by decide⟩
theorem witness_PcAdvancesByLengthOrToATarget_ret :
    CommitsIn (core0 255#9 1#8 0#8 0#8 [0x11#8]) .ret := by
  have h : step (core0 255#9 1#8 0#8 0#8 [0x11#8]) = _ := (step_running _ rfl).trans (exec_ret _ (by decide))
  exact ⟨rfl, ⟨rfl, [], rfl⟩, by rw [after, h], by rw [after, h]; simp⟩
theorem witness_StepKeepsOutputMatchingTheTrace : pushing.OutputMatchesTrace ∧ step pushing = .next (after pushing) :=
  ⟨rfl, rfl⟩
theorem witness_UnsupportedAluOpIsNeverRaised : pushing.err ≠ some (.unsupportedAluOp .add) ∧
    (step pushing = .next (after pushing) ∨ ∃ bytes, load bytes pushing = .next (after pushing)) := ⟨by decide, .inl rfl⟩
theorem witness_LatchesAndPortsAreInvisible :
    SameArchitecture pushing { pushing with opa := 9#8, draws := 5, output := [.printConst] } ∧
    core.run 1 pushing = .next (after pushing) := ⟨⟨rfl, rfl, rfl, rfl, rfl, rfl⟩, rfl⟩
/-- One step that pushes, with SP at exactly the bound after it. -/
theorem witness_CellsBelowTheStackAreSafe : pushing.Inv ∧
    (∀ (j : Nat) (u : State), j ≤ 1 → core.run j pushing = .next u → 0xF3 ≤ u.sp.toNat) ∧
    core.run 1 pushing = .next (after pushing) := by
  refine ⟨witness_inv, ?_, rfl⟩
  intro j u hj h
  match j, hj with
  | 0, _ => cases h; decide
  | 1, _ => cases h; decide
theorem witness_PushThenPopRestoresTheStack : pushing.mem.wf = true ∧ pushing.sp ≠ 0#8 ∧
    exec (.push (regByte 0)) pushing = .next (after pushing) ∧ ∃ t, exec (.push (regByte 7)) pushing = .next t :=
  ⟨by decide, by decide, rfl, _, rfl⟩
/-- CALL at 253, the highest address that returns. -/
theorem witness_CallThenRetReturns :
    (core0 253#9 0xF4#8 0#8 11#8 [0x50#8, 1#8]).mem.wf = true ∧ (core0 253#9 0xF4#8 0#8 11#8 [0x50#8, 1#8]).sp ≠ 0#8 ∧
    (core0 253#9 0xF4#8 0#8 11#8 [0x50#8, 1#8]).pc.toNat + 2 ≤ 255 ∧
    exec (.call (regByte 1)) (core0 253#9 0xF4#8 0#8 11#8 [0x50#8, 1#8]) =
      .next (after (core0 253#9 0xF4#8 0#8 11#8 [0x50#8, 1#8])) := ⟨by decide, by decide, by decide, rfl⟩
/-- PUSH R0 at 10 with SP = 13 writes cell 12, the next opcode; CALL R7 jumps to the very cell it wrote. -/
theorem witness_FetchSeesThePushedByte :
    ((core0 10#9 13#8 0x11#8 0#8 [0x45#8, 0#8]).Inv ∧ Runs (core0 10#9 13#8 0x11#8 0#8 [0x45#8, 0#8]) (.push (regByte 0)) ∧
      (after (core0 10#9 13#8 0x11#8 0#8 [0x45#8, 0#8])).halted = false ∧
      (after (core0 10#9 13#8 0x11#8 0#8 [0x45#8, 0#8])).pc.toNat + 0 =
        (after (core0 10#9 13#8 0x11#8 0#8 [0x45#8, 0#8])).sp.toNat) ∧
    (Runs (core0 10#9 0xF4#8 0#8 0#8 [0x50#8, 7#8]) (.call (regByte 7)) ∧
      (after (core0 10#9 0xF4#8 0#8 0#8 [0x50#8, 7#8])).halted = false ∧
      (after (core0 10#9 0xF4#8 0#8 0#8 [0x50#8, 7#8])).pc.toNat + 0 =
        (after (core0 10#9 0xF4#8 0#8 0#8 [0x50#8, 7#8])).sp.toNat) :=
  ⟨⟨inv_core0 _ _ _ _ _ (by decide), ⟨rfl, _, rfl⟩, by decide, by decide⟩, ⟨rfl, _, rfl⟩, by decide, by decide⟩
theorem witness_LoadWritesTheProgramFromZero : (List.replicate 256 1#8).length ≤ 256 := List.length_replicate.le
theorem witness_TooLongLoadWritesNothing : 256 < (List.replicate 257 1#8).length := by
  rw [List.length_replicate]; decide
theorem witness_LoadIsRefusedOutsideResetAndAfterAStep :
    step State.reset = .next (after State.reset) ∧ pushing ≠ State.reset := ⟨rfl, by decide⟩
/-- Each answer of run occurs: halted at the call, ok, an error, not finished. -/
theorem witness_RunEndsExactlyWhenHalted :
    pushing.Inv ∧ pushing.halted = false ∧ ({ pushing with halted := true } : State).halted = true ∧
    (∃ t, run 1 (core0 5#9 0#8 0#8 0#8 [1#8]) = .ok t) ∧ (∃ e t, run 2 pushing = .error e t) ∧
    (∃ t, run 1 pushing = .notFinished t) := ⟨witness_inv, rfl, rfl, ⟨_, rfl⟩, ⟨_, _, rfl⟩, ⟨_, rfl⟩⟩
theorem witness_MoreFuelKeepsTheResultOfRun : ∀ t, run 2 pushing ≠ .notFinished t := by
  intro t h
  have hr : ∃ e u, run 2 pushing = .error e u := ⟨_, _, rfl⟩
  obtain ⟨e, u, hu⟩ := hr
  rw [hu] at h
  cases h

end Sys2Proof.Tests
end

section
/-! The decoder and the fetch, inverted: what a decode or a fetch that ends in each way says about the bytes read. -/

namespace Sys2Proof

@[simp] theorem Op.op_withOperands (op : Op) (a b : Byte) : (op.withOperands a b).op = op := by
  cases op <;> rfl

/-- A legal opcode byte asks for at most two operand bytes (30_encoding.md R42). -/
theorem operandCount_le_two {c : Byte} {row : OpcodeRow} (h : lookupOpcode c = some row) : operandCount c ≤ 2 := by
  rw [lookupOpcode_byte h]
  cases row.op <;> decide

/-- A decode takes as many bytes as the instruction it gives is long (R41). -/
theorem length_add_rest_of_decode {bs rest : List Byte} {i : Instr} (h : decode bs = .ok (i, rest)) :
    i.length + rest.length = bs.length := by
  cases bs with
  | nil => cases h
  | cons c tail =>
    cases hrow : lookupOpcode c with
    | none => simp [decode, hrow] at h
    | some row =>
      by_cases hshort : tail.length < operandCount c
      · simp [decode, hrow, hshort] at h
      · simp only [decode, hrow, if_neg hshort, Except.ok.injEq, Prod.mk.injEq] at h
        obtain ⟨rfl, rfl⟩ := h
        have hcount : operandCount row.op.opcode = operandCount c := by rw [lookupOpcode_byte hrow]
        simp only [Instr.length, Op.op_withOperands, hcount, List.length_drop, List.length_cons]
        omega

/-- A decode fails on an illegal first byte, or because at most two bytes are all there is (R43, R47 to R49). -/
theorem decode_error_cases {bs : List Byte} {d : DecodeError} (h : decode bs = .error d) :
    (∃ c tail, bs = c :: tail ∧ lookupOpcode c = none ∧ d = .illegalOpcode c) ∨
      (bs.length ≤ 2 ∧ d = .truncated bs.length) := by
  cases bs with
  | nil => exact .inr ⟨by simp, (Except.error.inj h).symm⟩
  | cons c tail =>
    cases hrow : lookupOpcode c with
    | none =>
      simp only [decode, hrow, Except.error.injEq] at h
      exact .inl ⟨c, tail, rfl, hrow, h.symm⟩
    | some row =>
      have hle := operandCount_le_two hrow
      by_cases hshort : tail.length < operandCount c
      · simp only [decode, hrow, if_pos hshort, Except.error.injEq] at h
        refine .inr ⟨?_, ?_⟩
        · rw [List.length_cons]; omega
        · rw [← h, List.length_cons, Nat.add_comm]
      · simp [decode, hrow, hshort] at h

end Sys2Proof

namespace Sys2Proof.Machine

/-- Reading `k` bytes from address `a` on stops at the end of the memory. -/
theorem Memory.length_bytesFrom (m : Memory) (a k : Nat) : (m.bytesFrom a k).length = min k (256 - a) := by
  induction k generalizing a with
  | zero => simp [Memory.bytesFrom]
  | succ k ih =>
    by_cases ha : a < 256
    · simp only [Memory.bytesFrom, Config.memSize, if_pos ha, List.length_cons, ih]
      omega
    · simp only [Memory.bytesFrom, Config.memSize, if_neg ha, List.length_nil]
      omega

theorem State.length_fetchWindow (s : State) : s.fetchWindow.length = min 3 (256 - s.pc.toNat) :=
  Memory.length_bytesFrom s.mem s.pc.toNat 3

/-- The instruction a core runs lies wholly inside the memory (R47, R49). -/
theorem pc_add_length_le_of_runs {s : State} {i : Instr} (h : Runs s i) : s.pc.toNat + i.length ≤ 256 := by
  obtain ⟨-, rest, hd⟩ := h
  have hlen := length_add_rest_of_decode hd
  have hwin := s.length_fetchWindow
  have hpos : 1 ≤ i.length := Nat.le_add_right 1 _
  omega

/-- A fetch from a pc of at most 256 raises only errors that occur (60_exceptions.md R73). -/
theorem fetchError_occurs {s : State} {d : DecodeError} (hpc : s.pc.toNat ≤ 256)
    (h : decode s.fetchWindow = .error d) : (fetchError s.pc d).occurs = true := by
  have hwin := s.length_fetchWindow
  rcases decode_error_cases h with ⟨c, tail, hbs, hc, rfl⟩ | ⟨hle, rfl⟩
  · have hin : s.pc.toNat ≤ 255 := by
      rw [hbs, List.length_cons] at hwin
      omega
    simp [fetchError, MachineError.occurs, hc, hin]
  · have haddr : (s.pc.toNat : Int) + s.fetchWindow.length = 256 := by omega
    simp [fetchError, MachineError.occurs, haddr]

end Sys2Proof.Machine
end

section
/-! A step of a running core, inverted: the instruction it fetched is committed, or an error of it or of the fetch is taken. -/

namespace Sys2Proof.Machine

/-- A running core runs the instruction it fetches. -/
theorem step_of_runs {s : State} {i : Instr} (h : Runs s i) : step s = exec i s := by
  obtain ⟨hrun, rest, hd⟩ := h
  rw [step_running s hrun, fetch_ok hd]

/-- All a step of a running core can do (30_encoding.md section 6). -/
theorem step_cases {s t : State} (hrun : s.halted = false) (h : step s = .next t) :
    (∃ i w, Runs s i ∧ Effect i s w ∧ t = commit i s w) ∨
      (∃ i e, Runs s i ∧ Raises i s e ∧ t = takeError e s) ∨
      (∃ d, decode s.fetchWindow = .error d ∧ t = takeError (fetchError s.pc d) s) := by
  rcases fetch_cases s with ⟨i, rest, hd, -⟩ | ⟨d, hd, hf⟩
  · have hi : Runs s i := ⟨hrun, rest, hd⟩
    rw [step_of_runs hi] at h
    rcases exec_cases i s with ⟨w, hw, hx⟩ | ⟨e, he, hx⟩
    · exact .inl ⟨i, w, hi, hw, Host.Outcome.next.inj (h.symm.trans hx)⟩
    · exact .inr (.inl ⟨i, e, hi, he, Host.Outcome.next.inj (h.symm.trans hx)⟩)
  · rw [step_running s hrun, hf] at h
    exact .inr (.inr ⟨d, hd, (Host.Outcome.next.inj h).symm⟩)

/-- No instruction's own effect writes `ERR`. -/
theorem Effect.err_eq {i : Instr} {s w : State} (h : Effect i s w) : w.err = s.err := by
  cases i with
  | printConst | halt => subst h; rfl
  | ldi | prn => obtain ⟨_, -, rfl⟩ := h; rfl
  | add | mul | cmp => obtain ⟨_, _, -, -, rfl⟩ := h; rfl
  | push => obtain ⟨_, _, -, -, rfl⟩ := h; rfl
  | pop => obtain ⟨_, -, -, rfl⟩ := h; rfl
  | call => obtain ⟨_, _, -, -, -, rfl⟩ := h; rfl
  | ret => obtain ⟨-, rfl⟩ := h; rfl
  | jmp => obtain ⟨_, -, rfl⟩ := h; rfl
  | jeq | jne => obtain ⟨_, -, rfl⟩ := h; split <;> rfl

/-- Committing leaves the latches and the trace as `Committed` says (10_state.md R17, 60_exceptions.md R83, R84). -/
theorem committed_commit (i : Instr) (s w : State) : Committed i s (commit i s w) := by
  refine ⟨rfl, fun v hv => ?_, fun v hv => ?_, rfl⟩
  · rw [commit_opa, hv, Option.getD_some]
  · rw [commit_opb, hv, Option.getD_some]

/-- An instruction that runs raises only errors that occur: a CALL whose return address does not fit ends at cell 255, so that
address is 256 (R73, 43_control.md R68). -/
theorem Raises.occurs {i : Instr} {s : State} {e : MachineError} (hi : Runs s i) (h : Raises i s e) :
    e.occurs = true := by
  rcases h with ⟨v, hv, rfl⟩ | rfl | rfl | ⟨a, rfl, hpc, rfl⟩
  · exact decide_eq_true hv
  · rfl
  · rfl
  · have hfit := pc_add_length_le_of_runs hi
    rw [Instr.length_call] at hfit
    have haddr : (s.pc.toNat : Int) + 2 = 256 := by omega
    rw [haddr]
    rfl

/-- A running state that meets the invariant has no error latched (10_state.md R15). -/
theorem State.Inv.err_eq_none {s : State} (hs : s.Inv) (hrun : s.halted = false) : s.err = none := by
  by_contra herr
  simp [hs.err_halted herr] at hrun

/-- Settles O16, by the three ways a step of a running core can end. -/
theorem stepCommitsOrTakesOneError : Obligations.StepCommitsOrTakesOneError := by
  intro s t hs hrun hstep
  rcases step_cases hrun hstep with ⟨i, w, hi, hw, rfl⟩ | ⟨i, e, hi, he, rfl⟩ | ⟨d, hd, rfl⟩
  · have herr : (commit i s w).err = none := hw.err_eq.trans (hs.err_eq_none hrun)
    exact .inl ⟨i, hi, (step_of_runs hi).symm.trans hstep, committed_commit i s w, herr,
      (stepReturns_running hrun _).trans herr⟩
  · exact .inr ⟨e, he.occurs hi, rfl, stepReturns_running hrun _⟩
  · exact .inr ⟨_, fetchError_occurs hs.pc_le hd, rfl, stepReturns_running hrun _⟩

end Sys2Proof.Machine
end

section
/-! The decimal digits of a byte (60_exceptions.md R82): how many a byte has, and what follows for each number of digits. -/

namespace Sys2Proof.Machine

/-- A byte has one, two or three decimal digits. -/
theorem decimalDigits_cases (v : Byte) :
    (v.toNat < 10 ∧ decimalDigits v = [v.toNat]) ∨
      (10 ≤ v.toNat ∧ v.toNat < 100 ∧ decimalDigits v = [v.toNat / 10, v.toNat % 10]) ∨
      (100 ≤ v.toNat ∧ decimalDigits v = [v.toNat / 100, v.toNat / 10 % 10, v.toNat % 10]) := by
  rcases Nat.lt_or_ge v.toNat 10 with h | h
  · exact .inl ⟨h, if_pos h⟩
  · rcases Nat.lt_or_ge v.toNat 100 with h' | h'
    · exact .inr (.inl ⟨h, h', by rw [decimalDigits, if_neg (by omega), if_pos h']⟩)
    · exact .inr (.inr ⟨h', by rw [decimalDigits, if_neg (by omega), if_neg (by omega)]⟩)

/-- The digits, read in base ten, are the byte. -/
theorem foldl_decimalDigits (v : Byte) : (decimalDigits v).foldl (fun n d => 10 * n + d) 0 = v.toNat := by
  rcases decimalDigits_cases v with ⟨-, hd⟩ | ⟨-, -, hd⟩ | ⟨-, hd⟩ <;>
    simp only [hd, List.foldl_cons, List.foldl_nil] <;> omega

theorem lt_ten_of_mem_decimalDigits {v : Byte} {d : Nat} (h : d ∈ decimalDigits v) : d < 10 := by
  have hv : v.toNat < 256 := v.isLt
  rcases decimalDigits_cases v with ⟨_, hd⟩ | ⟨_, _, hd⟩ | ⟨_, hd⟩ <;>
    simp only [hd, List.mem_cons, List.not_mem_nil, or_false] at h <;> omega

/-- No leading zeros: only the byte 0 begins with the digit 0. -/
theorem decimalDigits_eq_of_head_zero {v : Byte} (h : (decimalDigits v).head? = some 0) : decimalDigits v = [0] := by
  rcases decimalDigits_cases v with ⟨_, hd⟩ | ⟨_, _, hd⟩ | ⟨_, hd⟩ <;>
    simp only [hd, List.head?_cons, Option.some.injEq] at h
  · rw [hd, h]
  · omega
  · omega

/-- Settles O53, by the facts about the digits of a byte. -/
theorem eventsRenderAsDecimalText : Obligations.EventsRenderAsDecimalText :=
  ⟨rfl, fun v => ⟨rfl, foldl_decimalDigits v, fun _ => lt_ten_of_mem_decimalDigits, decimalDigits_eq_of_head_zero⟩⟩

end Sys2Proof.Machine
end

section
/-! What an instruction's own effect does to each piece of state, one case analysis per piece. -/

namespace Sys2Proof.Machine

/-! ### Register operands -/

theorem regByte_injective : Function.Injective regByte := fun a b h => by
  rw [Fin.ext_iff, ← regByte_toNat a, h, regByte_toNat]

@[simp] theorem isRegOperand_regByte (r : RegIdx) : isRegOperand (regByte r) = true :=
  decide_eq_true ((regByte_toNat r).trans_lt r.isLt)

/-- A committed instruction has passed the register checks of R50. -/
theorem Effect.wellFormed {i : Instr} {s w : State} (h : Effect i s w) : i.wellFormed = true := by
  cases i with
  | printConst | halt | ret => rfl
  | ldi | prn | pop | jmp | jeq | jne =>
    obtain ⟨ra, rfl, -⟩ := h
    simp [Instr.wellFormed, Instr.regOperands]
  | push | call =>
    obtain ⟨ra, _, rfl, -⟩ := h
    simp [Instr.wellFormed, Instr.regOperands]
  | add | mul | cmp =>
    obtain ⟨ra, rb, rfl, rfl, -⟩ := h
    simp [Instr.wellFormed, Instr.regOperands]

/-! ### Memory, HALTED and FL -/

/-- Every effect keeps the memory's canonical form: only PUSH and CALL write it, one cell each (20_memory.md R24). -/
theorem Effect.mem_wf {i : Instr} {s w : State} (h : Effect i s w) (hs : s.mem.wf = true) : w.mem.wf = true := by
  cases i with
  | printConst | halt => subst h; exact hs
  | ldi | prn => obtain ⟨_, -, rfl⟩ := h; exact hs
  | add | mul | cmp => obtain ⟨_, _, -, -, rfl⟩ := h; exact hs
  | push => obtain ⟨_, p, -, -, rfl⟩ := h; exact Memory.write_wf s.mem p _ hs
  | pop => obtain ⟨_, -, -, rfl⟩ := h; exact hs
  | call => obtain ⟨_, p, -, -, -, rfl⟩ := h; exact Memory.write_wf s.mem p _ hs
  | ret => obtain ⟨-, rfl⟩ := h; exact hs
  | jmp => obtain ⟨_, -, rfl⟩ := h; exact hs
  | jeq | jne => obtain ⟨_, -, rfl⟩ := h; split <;> exact hs

/-- HALT alone writes `HALTED`, and CMP alone writes FL (10_state.md R13, R14). -/
theorem Effect.halted_eq_and_flE_eq {i : Instr} {s w : State} (h : Effect i s w) :
    (i = .halt ∨ w.halted = s.halted) ∧ ((∃ a b, i = .cmp a b) ∨ w.flE = s.flE) := by
  cases i with
  | printConst => subst h; exact ⟨.inr rfl, .inr rfl⟩
  | halt => subst h; exact ⟨.inl rfl, .inr rfl⟩
  | ldi | prn | jmp => obtain ⟨_, -, rfl⟩ := h; exact ⟨.inr rfl, .inr rfl⟩
  | add | mul => obtain ⟨_, _, -, -, rfl⟩ := h; exact ⟨.inr rfl, .inr rfl⟩
  | cmp a b => obtain ⟨_, _, -, -, rfl⟩ := h; exact ⟨.inr rfl, .inl ⟨a, b, rfl⟩⟩
  | push => obtain ⟨_, _, -, -, rfl⟩ := h; exact ⟨.inr rfl, .inr rfl⟩
  | pop => obtain ⟨_, -, -, rfl⟩ := h; exact ⟨.inr rfl, .inr rfl⟩
  | call => obtain ⟨_, _, -, -, -, rfl⟩ := h; exact ⟨.inr rfl, .inr rfl⟩
  | ret => obtain ⟨-, rfl⟩ := h; exact ⟨.inr rfl, .inr rfl⟩
  | jeq | jne => obtain ⟨_, -, rfl⟩ := h; split <;> exact ⟨.inr rfl, .inr rfl⟩

theorem Effect.halted_eq {i : Instr} {s w : State} (h : Effect i s w) (hi : i ≠ .halt) : w.halted = s.halted :=
  h.halted_eq_and_flE_eq.1.resolve_left hi

theorem Effect.eq_cmp_of_flE_ne {i : Instr} {s w : State} (h : Effect i s w) (hne : w.flE ≠ s.flE) : ∃ a b, i = .cmp a b :=
  h.halted_eq_and_flE_eq.2.resolve_right hne

/-! ### The registers -/

/-- Instruction `i` names register `r` as its destination, or is a stack instruction and `r` is SP (10_state.md section 1). -/
def Writes (i : Instr) (r : RegIdx) : Prop :=
  (∃ imm, i = .ldi (regByte r) imm) ∨ (∃ b, i = .add (regByte r) b) ∨ (∃ b, i = .mul (regByte r) b) ∨
    i = .pop (regByte r) ∨ (r = 7 ∧ (i = .ret ∨ ∃ a, i = .push a ∨ i = .pop a ∨ i = .call a))

theorem writes_sp {i : Instr} (h : i = .ret ∨ ∃ a, i = .push a ∨ i = .pop a ∨ i = .call a) : Writes i 7 :=
  .inr (.inr (.inr (.inr ⟨rfl, h⟩)))

theorem State.eq_of_reg_setReg_ne {s : State} {q r : RegIdx} {v : Byte} (h : (s.setReg q v).reg r ≠ s.reg r) : r = q := by
  by_contra hne
  exact h (by rw [State.reg_setReg, if_neg hne])

/-- Only the registers an instruction may write change under its effect. -/
theorem Effect.writes_of_reg_ne {i : Instr} {s w : State} {r : RegIdx} (h : Effect i s w) (hr : w.reg r ≠ s.reg r) :
    Writes i r := by
  cases i with
  | printConst | halt => subst h; exact absurd rfl hr
  | prn | jmp => obtain ⟨_, -, rfl⟩ := h; exact absurd rfl hr
  | cmp => obtain ⟨_, _, -, -, rfl⟩ := h; exact absurd rfl hr
  | jeq | jne => obtain ⟨_, -, rfl⟩ := h; exact absurd (by split <;> rfl) hr
  | ldi a imm =>
    obtain ⟨ra, rfl, rfl⟩ := h
    obtain rfl := State.eq_of_reg_setReg_ne hr
    exact .inl ⟨imm, rfl⟩
  | add a b =>
    obtain ⟨ra, rb, rfl, -, rfl⟩ := h
    obtain rfl := State.eq_of_reg_setReg_ne hr
    exact .inr (.inl ⟨b, rfl⟩)
  | mul a b =>
    obtain ⟨ra, rb, rfl, -, rfl⟩ := h
    obtain rfl := State.eq_of_reg_setReg_ne hr
    exact .inr (.inr (.inl ⟨b, rfl⟩))
  | push a =>
    obtain ⟨_, _, -, -, rfl⟩ := h
    obtain rfl := State.eq_of_reg_setReg_ne hr
    exact writes_sp (.inr ⟨a, .inl rfl⟩)
  | pop a =>
    obtain ⟨ra, rfl, -, rfl⟩ := h
    by_cases hsp : r = 7
    · exact hsp ▸ writes_sp (.inr ⟨_, .inr (.inl rfl)⟩)
    · rw [State.reg_advance, State.reg_setSp, if_neg hsp] at hr
      obtain rfl := State.eq_of_reg_setReg_ne hr
      exact .inr (.inr (.inr (.inl rfl)))
  | call a =>
    obtain ⟨_, _, -, -, -, rfl⟩ := h
    obtain rfl := State.eq_of_reg_setReg_ne hr
    exact writes_sp (.inr ⟨a, .inr (.inr rfl)⟩)
  | ret =>
    obtain ⟨-, rfl⟩ := h
    obtain rfl := State.eq_of_reg_setReg_ne hr
    exact writes_sp (.inl rfl)

/-! ### The program counter -/

/-- Instruction `i` run from `s` writes a target to pc: CALL, RET, JMP, and JEQ and JNE where FL.E takes them (43_control.md). -/
def Jumps (i : Instr) (s : State) : Prop :=
  i.op ∈ [.call, .ret, .jmp] ∨ (i.op = .jeq ∧ s.flE = true) ∨ (i.op = .jne ∧ s.flE = false)

/-- Only instructions whose set-PC flag, bit 4 of the opcode byte, is 1 jump (30_encoding.md R37). -/
theorem Jumps.setPcFlag {i : Instr} {s : State} (h : Jumps i s) : i.op.opcode.getLsbD 4 = true := by
  have hbit : ∀ op : Op, op ∈ [.call, .ret, .jmp] ∨ op = .jeq ∨ op = .jne → op.opcode.getLsbD 4 = true := by
    intro op
    cases op <;> decide
  exact hbit i.op (h.imp_right (Or.imp And.left And.left))

/-- An effect advances pc past the instruction, or is that of a jump and writes a byte to pc (30_encoding.md R52, 43_control.md
R66). -/
theorem Effect.pc_cases {i : Instr} {s w : State} (h : Effect i s w) :
    w.pc = s.pc + BitVec.ofNat 9 i.length ∨ (Jumps i s ∧ ∃ v : Byte, w.pc = v.setWidth 9) := by
  cases i with
  | printConst | halt => subst h; exact .inl rfl
  | ldi | prn => obtain ⟨_, -, rfl⟩ := h; exact .inl rfl
  | add | mul | cmp => obtain ⟨_, _, -, -, rfl⟩ := h; exact .inl rfl
  | push => obtain ⟨_, _, -, -, rfl⟩ := h; exact .inl rfl
  | pop => obtain ⟨_, -, -, rfl⟩ := h; exact .inl rfl
  | call => obtain ⟨_, _, -, -, -, rfl⟩ := h; exact .inr ⟨.inl (.head _), _, rfl⟩
  | ret => obtain ⟨-, rfl⟩ := h; exact .inr ⟨.inl (.tail _ (.head _)), _, rfl⟩
  | jmp => obtain ⟨_, -, rfl⟩ := h; exact .inr ⟨.inl (.tail _ (.tail _ (.head _))), _, rfl⟩
  | jeq =>
    obtain ⟨_, -, rfl⟩ := h
    cases hfl : s.flE
    · exact .inl rfl
    · exact .inr ⟨.inr (.inl ⟨rfl, hfl⟩), _, rfl⟩
  | jne =>
    obtain ⟨_, -, rfl⟩ := h
    cases hfl : s.flE
    · exact .inr ⟨.inr (.inr ⟨rfl, hfl⟩), _, rfl⟩
    · exact .inl rfl

/-- The advance of a fetched instruction does not wrap (30_encoding.md R52). -/
theorem toNat_pc_add_length_of_runs {s : State} {i : Instr} (hi : Runs s i) :
    (s.pc + BitVec.ofNat 9 i.length).toNat = s.pc.toNat + i.length := by
  have hfit := pc_add_length_le_of_runs hi
  rw [BitVec.toNat_add, BitVec.toNat_ofNat]
  omega

/-- An instruction that was fetched leaves pc in 0..256 (10_state.md R11). -/
theorem Effect.pc_le {i : Instr} {s w : State} (h : Effect i s w) (hi : Runs s i) : w.pc.toNat ≤ 256 := by
  rcases h.pc_cases with hpc | ⟨-, v, hpc⟩
  · rw [hpc, toNat_pc_add_length_of_runs hi]
    exact pc_add_length_le_of_runs hi
  · have hv : v.toNat < 256 := v.isLt
    rw [hpc, BitVec.toNat_setWidth_of_le (by omega)]
    omega

/-- A jump's target is its register, where JEQ and JNE are taken as FL.E says (43_control.md R70 to R72). -/
theorem Effect.pc_jump {i : Instr} {s w : State} {ra : RegIdx} (h : Effect i s w)
    (hi : i = .jmp (regByte ra) ∨ (i = .jeq (regByte ra) ∧ s.flE = true) ∨ (i = .jne (regByte ra) ∧ s.flE = false)) :
    w.pc = (s.reg ra).setWidth 9 := by
  rcases hi with rfl | ⟨rfl, hfl⟩ | ⟨rfl, hfl⟩ <;> obtain ⟨q, hq, rfl⟩ := h <;> obtain rfl := regByte_injective hq
  · rfl
  · rw [if_pos hfl, State.jump_pc]
  · simp [hfl]

/-- The address a push stores to is `SP - 1` as a byte (42_stack.md R63). -/
theorem eq_sp_sub_one_of_pushAddress {s : State} {p : Byte} (h : (p.toNat : Int) = s.pushAddress) : p = s.sp - 1#8 := by
  have hdef : s.pushAddress = (s.sp.toNat : Int) - 1 := rfl
  bv_omega

/-- CALL's target is its register as it is after the SP write (43_control.md R68). -/
theorem Effect.pc_call {s w : State} {ra : RegIdx} (h : Effect (.call (regByte ra)) s w) :
    w.pc = (if ra = 7 then s.sp - 1#8 else s.reg ra).setWidth 9 := by
  obtain ⟨q, p, hq, -, hp, rfl⟩ := h
  obtain rfl := regByte_injective hq
  rw [State.jump_pc, State.reg_setSp, eq_sp_sub_one_of_pushAddress hp]

end Sys2Proof.Machine
end

section
/-! What a step does to each piece of state, the state invariant, and reset. -/

namespace Sys2Proof.Machine

/-! ### How a step ends -/

theorem eq_of_step_halted {s t : State} (hh : s.halted = true) (h : step s = .next t) : t = s :=
  (Host.Outcome.next.inj ((step_halted s hh).symm.trans h)).symm

/-- A step leaves all but `HALTED` and `ERR` as it was, or committed the instruction it fetched. -/
theorem step_commits_or_keeps {s t : State} (h : step s = .next t) :
    t = s ∨ (∃ e, t = takeError e s) ∨ ∃ i w, Runs s i ∧ Effect i s w ∧ t = commit i s w := by
  cases hrun : s.halted with
  | true => exact .inl (eq_of_step_halted hrun h)
  | false =>
    rcases step_cases hrun h with hc | ⟨_, e, -, -, rfl⟩ | ⟨_, -, rfl⟩
    · exact .inr (.inr hc)
    · exact .inr (.inl ⟨e, rfl⟩)
    · exact .inr (.inl ⟨_, rfl⟩)

/-- A traced instruction committed: an error leaves the trace alone (60_exceptions.md R75). -/
theorem commit_of_trace_ne {i : Instr} {s t : State} (h : exec i s = .next t) (ht : t.trace ≠ s.trace) :
    ∃ w, Effect i s w ∧ t = commit i s w := by
  rcases exec_cases i s with ⟨w, hw, hx⟩ | ⟨e, -, hx⟩ <;> obtain rfl := Host.Outcome.next.inj (h.symm.trans hx)
  · exact ⟨w, hw, rfl⟩
  · exact absurd rfl ht

/-! ### The state invariant -/

/-- As many operand bytes follow the opcode byte as its bits 7-6 say (30_encoding.md R36). -/
theorem length_operands (i : Instr) : i.operands.length = operandCount i.op.opcode := by
  have hlen : i.length = 1 + i.operands.length := by cases i <;> simp [Instr.operands]
  exact Nat.add_left_cancel hlen.symm

/-- The trace port is called only with snapshots of legal instructions, inside the memory (60_exceptions.md R84). -/
theorem snapshot_occurs {i : Instr} {s : State} (hi : Runs s i) (w : State) : (snapshot i s w).occurs = true := by
  have hfit := pc_add_length_le_of_runs hi
  have hpos : 1 ≤ i.length := Nat.le_add_right 1 _
  have hpc : s.pc.toNat ≤ 255 := by omega
  obtain ⟨row, hrow, -⟩ := lookupOpcode_opcode i.op
  simp [Snapshot.occurs, snapshot, hpc, hrow, length_operands]

/-- Taking an error that occurs keeps the invariant (R75). -/
theorem State.Inv.takeError {s : State} (hs : s.Inv) {e : MachineError} (he : e.occurs = true) : (takeError e s).Inv where
  pc_le := hs.pc_le
  mem_wf := hs.mem_wf
  err_halted _ := rfl
  err_occurs _ h := Option.some.inj h ▸ he
  trace_occurs := hs.trace_occurs

/-- Committing a fetched instruction keeps the invariant. -/
theorem State.Inv.commit {i : Instr} {s w : State} (hs : s.Inv) (hi : Runs s i) (hw : Effect i s w) :
    (commit i s w).Inv where
  pc_le := hw.pc_le hi
  mem_wf := hw.mem_wf hs.mem_wf
  err_halted h := absurd (hw.err_eq.trans (hs.err_eq_none hi.1)) h
  err_occurs e h := hs.err_occurs e (hw.err_eq.symm.trans h)
  trace_occurs x hx := by
    rcases List.mem_append.mp hx with hx | hx
    · exact hs.trace_occurs x hx
    · rw [List.mem_singleton.mp hx]
      exact snapshot_occurs hi w

/-- Settles O3, by the three ways a step of a running core can end. -/
theorem stepKeepsTheInvariant : Obligations.StepKeepsTheInvariant := by
  intro s t hs hstep
  cases hrun : s.halted with
  | true => exact eq_of_step_halted hrun hstep ▸ hs
  | false =>
    rcases step_cases hrun hstep with ⟨i, w, hi, hw, rfl⟩ | ⟨i, e, hi, he, rfl⟩ | ⟨d, hd, rfl⟩
    · exact hs.commit hi hw
    · exact hs.takeError (he.occurs hi)
    · exact hs.takeError (fetchError_occurs hs.pc_le hd)

/-! ### Each piece of state along a step -/

/-- Settles O32: what does not commit leaves FL alone, and of the effects only CMP's writes it. -/
theorem flagIsWrittenOnlyByCmp : Obligations.FlagIsWrittenOnlyByCmp := by
  intro s t hstep hne
  rcases step_commits_or_keeps hstep with rfl | ⟨e, rfl⟩ | ⟨i, w, hi, hw, rfl⟩
  · exact absurd rfl hne
  · exact absurd rfl hne
  · obtain ⟨a, b, rfl⟩ := hw.eq_cmp_of_flE_ne hne
    exact ⟨a, b, hi⟩

/-- Settles O34: a halted core steps to itself, and of the effects only HALT's sets `HALTED`. -/
theorem haltedIsSetOnlyByHaltOrError : Obligations.HaltedIsSetOnlyByHaltOrError := by
  intro s t hstep
  refine ⟨fun hh => ?_, fun hrun hh => ?_⟩
  · exact eq_of_step_halted hh hstep ▸ hh
  · rcases step_commits_or_keeps hstep with rfl | he | ⟨i, w, hi, hw, rfl⟩
    · exact (Bool.false_ne_true (hrun.symm.trans hh)).elim
    · exact .inr he
    · by_cases hhalt : i = .halt
      · exact .inl (hhalt ▸ hi)
      · exact (Bool.false_ne_true (((hw.halted_eq hhalt).trans hrun).symm.trans hh)).elim

/-- Settles O35: what does not commit leaves the registers alone, and an effect writes those it names. -/
theorem registersChangeOnlyAsNamed : Obligations.RegistersChangeOnlyAsNamed := by
  intro s t r hstep hne
  rcases step_commits_or_keeps hstep with rfl | ⟨e, rfl⟩ | ⟨i, w, hi, hw, rfl⟩
  · exact absurd rfl hne
  · exact absurd rfl hne
  · exact ⟨i, hi, hw.writes_of_reg_ne hne⟩

/-- Settles O38: a traced step committed, and an effect either jumps or advances pc. -/
theorem pcAdvancesByLengthOrToATarget : Obligations.PcAdvancesByLengthOrToATarget := by
  intro s t i _ hi hstep htrace
  obtain ⟨w, hw, rfl⟩ := commit_of_trace_ne ((step_of_runs hi).symm.trans hstep) htrace
  have hadv : ¬ Jumps i s → w.pc.toNat = s.pc.toNat + i.length := fun hj => by
    rw [hw.pc_cases.resolve_right (fun hc => hj hc.1), toNat_pc_add_length_of_runs hi]
  refine ⟨fun hflag => hadv fun hj => ?_, fun hnot => ?_, fun ra => hw.pc_jump, fun ra hc => ?_, fun hr => ?_,
    hw.pc_le hi, hw.wellFormed⟩
  · exact Bool.false_ne_true (hflag.symm.trans hj.setPcFlag)
  · rw [commit_pc, hadv fun hj => ?_]
    · rcases hnot with ⟨hop, -⟩ | ⟨hop, -⟩ <;> rw [Instr.length, hop] <;> rfl
    · rcases hnot with ⟨hop, hfl⟩ | ⟨hop, hfl⟩ <;> simp [Jumps, hop, hfl] at hj
  · subst hc
    exact hw.pc_call
  · subst hr
    obtain ⟨-, rfl⟩ := hw
    rfl

/-! ### Reset -/

/-- Settles O1, field by field of the reset state. -/
theorem resetGivesTheSpecifiedValues : Obligations.ResetGivesTheSpecifiedValues := fun _ =>
  ⟨rfl, rfl, by decide, rfl, rfl, rfl, rfl, rfl, rfl, rfl, fun _ => rfl⟩

/-- Settles O2: at reset no error is latched and nothing is traced. -/
theorem resetMeetsTheInvariant : Obligations.ResetMeetsTheInvariant where
  pc_le := Nat.zero_le _
  mem_wf := rfl
  err_halted h := absurd rfl h
  err_occurs _ h := nomatch h
  trace_occurs _ h := nomatch h

end Sys2Proof.Machine
end

section
/-! Two cores side by side: an instruction run from two states that agree on what it reads ends in the same way on both. -/

namespace Sys2Proof.Machine

/-- Working copies `w` and `w'` of instructions begun in `s` and `s'`: they agree on the registers, pc, memory, HALTED and ERR,
on FL where `s` and `s'` did, and carry the same events beyond those of `s` and `s'`. -/
structure WorkAlike (s s' w w' : State) : Prop where
  regs : w.regs = w'.regs
  pc : w.pc = w'.pc
  halted : w.halted = w'.halted
  err : w.err = w'.err
  mem : w.mem = w'.mem
  flE : s.flE = s'.flE → w.flE = w'.flE
  output : ∃ evs, w.output = s.output ++ evs ∧ w'.output = s'.output ++ evs

/-! ### Each update of the working copy keeps the agreement -/

namespace WorkAlike

variable {s s' w w' : State} (h : WorkAlike s s' w w')
include h

theorem reg (r : RegIdx) : w.reg r = w'.reg r := State.reg_congr w' w h.regs r

theorem top : w.top = w'.top := by
  simp only [State.top, State.sp, h.mem, h.reg]

theorem setReg (r : RegIdx) {v v' : Byte} (hv : v = v') : WorkAlike s s' (w.setReg r v) (w'.setReg r v') :=
  { h with regs := by rw [State.setReg_regs, State.setReg_regs, h.regs, hv] }

theorem setSp (p : Byte) : WorkAlike s s' (w.setSp p) (w'.setSp p) := h.setReg Config.spIndex rfl

theorem setPc {v v' : PcWord} (hv : v = v') : WorkAlike s s' (w.setPc v) (w'.setPc v') :=
  { h with pc := hv }

theorem advance (i : Instr) : WorkAlike s s' (w.advance i) (w'.advance i) :=
  h.setPc (congrArg (· + BitVec.ofNat 9 i.length) h.pc)

theorem jump {v v' : Byte} (hv : v = v') : WorkAlike s s' (w.jump v) (w'.jump v') :=
  h.setPc (congrArg _ hv)

theorem store {a a' v v' : Byte} (ha : a = a') (hv : v = v') : WorkAlike s s' (w.store a v) (w'.store a' v') :=
  { h with mem := by rw [State.store_mem, State.store_mem, h.mem, ha, hv] }

theorem setHalted : WorkAlike s s' w.setHalted w'.setHalted := { h with halted := rfl }

theorem setE {e e' : Bool} (he : e = e') : WorkAlike s s' (w.setE e) (w'.setE e') := { h with flE := fun _ => he }

theorem emit {ev ev' : OutputEvent} (hev : ev = ev') : WorkAlike s s' (w.emit ev) (w'.emit ev') where
  regs := h.regs
  pc := h.pc
  halted := h.halted
  err := h.err
  mem := h.mem
  flE := h.flE
  output := by
    obtain ⟨evs, hw, hw'⟩ := h.output
    refine ⟨evs ++ [ev], ?_, ?_⟩
    · rw [State.emit_output, hw, List.append_assoc]
    · rw [State.emit_output, hw', hev, List.append_assoc]

end WorkAlike

/-! ### Each check ends in the same way on both sides -/

/-- Both computations end in working copies that are alike, or both raise one error. -/
inductive EndAlike (s s' : State) : Except MachineError State → Except MachineError State → Prop
  | ok {w w' : State} (h : WorkAlike s s' w w') : EndAlike s s' (.ok w) (.ok w')
  | error (e : MachineError) : EndAlike s s' (.error e) (.error e)

namespace EndAlike

variable {s s' w w' : State}

theorem withReg (v : Byte) {k k' : RegIdx → Except MachineError State} (hk : ∀ r, EndAlike s s' (k r) (k' r)) :
    EndAlike s s' (withReg v k) (withReg v k') := by
  rcases regByte_or_bad v with ⟨r, rfl⟩ | hv
  · simpa only [withReg_regByte] using hk r
  · simpa only [withReg_bad v _ hv] using .error _

theorem withAddress {a a' : Int} (ha : a = a') {k k' : Byte → Except MachineError State}
    (hk : ∀ b, EndAlike s s' (k b) (k' b)) : EndAlike s s' (withAddress a k) (withAddress a' k') := by
  subst ha
  by_cases h : 0 ≤ a ∧ a < 256
  · simpa only [withAddress_ok a _ h.1 h.2] using hk _
  · simpa only [withAddress_bad a _ (show a < 0 ∨ 256 ≤ a by omega)] using .error _

theorem withPushedSp (h : WorkAlike s s' w w') {k k' : State → Except MachineError State}
    (hk : ∀ a, EndAlike s s' (k (w.setSp a)) (k' (w'.setSp a))) :
    EndAlike s s' (withPushedSp w k) (withPushedSp w' k') :=
  withAddress (by simp only [State.pushAddress, State.sp, h.reg]) hk

theorem withPoppedSp (h : WorkAlike s s' w w') {k k' : State → Except MachineError State}
    (hk : ∀ a, EndAlike s s' (k (w.setSp a)) (k' (w'.setSp a))) :
    EndAlike s s' (withPoppedSp w k) (withPoppedSp w' k') :=
  withAddress (by simp only [State.poppedSp, State.sp, h.reg]) hk

end EndAlike

/-- One instruction in two states: both commit it with working copies that are alike, or both take one error. -/
def OutcomeAlike (i : Instr) (s s' : State) (o o' : Host.Outcome State Fault Refusal) : Prop :=
  (∃ w w', WorkAlike s s' w w' ∧ o = .next (commit i s w) ∧ o' = .next (commit i s' w')) ∨
    ∃ e, o = .next (takeError e s) ∧ o' = .next (takeError e s')

theorem OutcomeAlike.finish {s s' : State} (i : Instr) {r r' : Except MachineError State} (h : EndAlike s s' r r') :
    OutcomeAlike i s s' (finish i s r) (finish i s' r') := by
  cases h with
  | ok h => exact .inl ⟨_, _, h, rfl, rfl⟩
  | error e => exact .inr ⟨e, rfl, rfl⟩

/-- An instruction reads the registers, pc and memory, and FL only if it is JEQ or JNE (10_state.md sections 4 and 6): run from
two states that agree on these, it ends in the same way. -/
theorem exec_alike {s s' : State} (i : Instr) (h : WorkAlike s s' s s')
    (hfl : i.op = .jeq ∨ i.op = .jne → s.flE = s'.flE) : OutcomeAlike i s s' (exec i s) (exec i s') := by
  cases i with
  | printConst => exact .finish _ (.ok ((h.emit rfl).advance _))
  | halt => exact .finish _ (.ok (h.setHalted.advance _))
  | ldi a imm => exact .finish _ (.withReg a fun ra => .ok ((h.setReg ra rfl).advance _))
  | prn a => exact .finish _ (.withReg a fun ra => .ok ((h.emit (congrArg _ (h.reg ra))).advance _))
  | add a b | mul a b =>
    exact .finish _ (.withReg a fun ra => .withReg b fun rb =>
      .ok ((h.setReg ra (congrArg₂ _ (h.reg ra) (h.reg rb))).advance _))
  | cmp a b =>
    exact .finish _ (.withReg a fun ra => .withReg b fun rb =>
      .ok ((h.setE (congrArg₂ _ (h.reg ra) (h.reg rb))).advance _))
  | push a =>
    exact .finish _ (.withReg a fun ra => .withPushedSp h fun p =>
      have h1 := h.setSp p
      .ok ((h1.store (h1.reg _) (h1.reg ra)).advance _))
  | pop a =>
    exact .finish _ (.withReg a fun ra => .withPoppedSp (h.setReg ra h.top) fun p =>
      .ok (((h.setReg ra h.top).setSp p).advance _))
  | call a =>
    exact .finish _ (.withReg a fun ra => .withAddress (by rw [h.pc]) fun ret => .withPushedSp h fun p =>
      have h1 := h.setSp p
      .ok ((h1.store (h1.reg _) rfl).jump (h1.reg ra)))
  | ret =>
    -- unfolded by hand: with no register check in front, unification would evaluate the check of SP's address
    simp only [exec, execRet]
    exact .finish _ (.withPoppedSp h fun p => .ok ((h.setSp p).jump h.top))
  | jmp a => exact .finish _ (.withReg a fun ra => .ok (h.jump (h.reg ra)))
  | jeq a =>
    refine .finish _ (.withReg a fun ra => .ok ?_)
    rw [hfl (.inl rfl)]
    split
    · exact h.jump (h.reg ra)
    · exact h.advance _
  | jne a =>
    refine .finish _ (.withReg a fun ra => .ok ?_)
    rw [hfl (.inr rfl)]
    split
    · exact h.advance _
    · exact h.jump (h.reg ra)

/-- Settles O33: two states that differ in FL alone are alike for every instruction but JEQ and JNE. -/
theorem flagIsReadOnlyByJeqAndJne : Obligations.FlagIsReadOnlyByJeqAndJne := by
  intro i s e hjeq hjne
  have hstart : WorkAlike s { s with flE := e } s { s with flE := e } :=
    ⟨rfl, rfl, rfl, rfl, rfl, id, [], by simp⟩
  rcases exec_alike i hstart (fun hop => (hop.elim hjeq hjne).elim) with ⟨w, w', h, ht, hu⟩ | ⟨e', ht, hu⟩
  · refine ⟨_, _, ht, hu, ?_⟩
    obtain ⟨evs, hw, hw'⟩ := h.output
    simp [commit, snapshot, h.regs, h.pc, h.halted, h.err, h.mem, hw.trans hw'.symm]
  · exact ⟨_, _, ht, hu, rfl⟩

/-! ### Runs side by side -/

/-- From `s` to `t` and from `s'` to `t'` the same events and the same snapshots were delivered. -/
def SameDeliveries (s s' t t' : State) : Prop :=
  ∃ evs snaps, t.output = s.output ++ evs ∧ t'.output = s'.output ++ evs ∧
    t.trace = s.trace ++ snaps ∧ t'.trace = s'.trace ++ snaps

theorem SameDeliveries.refl (s s' : State) : SameDeliveries s s' s s' := ⟨[], [], by simp⟩

theorem SameDeliveries.trans {s s' t t' u u' : State} (h : SameDeliveries s s' t t') (h' : SameDeliveries t t' u u') :
    SameDeliveries s s' u u' := by
  obtain ⟨evs, snaps, ho, ho', ht, ht'⟩ := h
  obtain ⟨evs₂, snaps₂, hp, hp', hu, hu'⟩ := h'
  exact ⟨evs ++ evs₂, snaps ++ snaps₂, by simp [hp, ho], by simp [hp', ho'], by simp [hu, ht], by simp [hu', ht']⟩

theorem SameArchitecture.workAlike {s s' : State} (h : SameArchitecture s s') : WorkAlike s s' s s' := by
  obtain ⟨hregs, hpc, hfl, hhalted, herr, hmem⟩ := h
  exact ⟨hregs, hpc, hhalted, herr, hmem, id, [], by simp⟩

/-- A fetch reads pc and memory alone. -/
theorem fetch_congr {s s' : State} (hpc : s.pc = s'.pc) (hmem : s.mem = s'.mem) : fetch s = fetch s' := by
  simp [fetch, State.fetchWindow, hpc, hmem]

theorem SameArchitecture.takeError {s s' : State} (h : SameArchitecture s s') (e : MachineError) :
    SameArchitecture (takeError e s) (takeError e s') := by
  obtain ⟨hregs, hpc, hfl, -, -, hmem⟩ := h
  exact ⟨hregs, hpc, hfl, rfl, rfl, hmem⟩

/-- Committing working copies that are alike delivers one snapshot, the same on both sides (60_exceptions.md R84). -/
theorem WorkAlike.sameDeliveries {s s' w w' : State} (h : WorkAlike s s' w w') (hpc : s.pc = s'.pc) (i : Instr) :
    SameDeliveries s s' (commit i s w) (commit i s' w') := by
  obtain ⟨evs, hw, hw'⟩ := h.output
  refine ⟨evs, [snapshot i s w], hw, hw', rfl, ?_⟩
  rw [commit_trace, snapshot, snapshot, hpc, h.regs]

/-- One step on two cores that agree on what programs see leaves them so, with the same deliveries. -/
theorem step_sameArchitecture {s s' t : State} (h : SameArchitecture s s') (hstep : step s = .next t) :
    ∃ t', step s' = .next t' ∧ SameArchitecture t t' ∧ SameDeliveries s s' t t' := by
  obtain ⟨-, hpc, hfl, hhalted, -, hmem⟩ := id h
  cases hrun : s.halted with
  | true =>
    obtain rfl := eq_of_step_halted hrun hstep
    exact ⟨s', step_halted s' (hhalted.symm.trans hrun), h, .refl t s'⟩
  | false =>
    rw [step_running s hrun] at hstep
    rw [step_running s' (hhalted.symm.trans hrun), ← fetch_congr hpc hmem]
    cases hf : fetch s with
    | error e =>
      rw [hf] at hstep
      obtain rfl := Host.Outcome.next.inj hstep
      exact ⟨_, rfl, h.takeError e, .refl s s'⟩
    | ok i =>
      rw [hf] at hstep
      rcases exec_alike i h.workAlike (fun _ => hfl) with ⟨w, w', hw, hx, hx'⟩ | ⟨e, hx, hx'⟩ <;>
        obtain rfl := Host.Outcome.next.inj (hstep.symm.trans hx)
      · exact ⟨_, hx', ⟨hw.regs, hw.pc, hw.flE hfl, hw.halted, hw.err, hw.mem⟩, hw.sameDeliveries hpc i⟩
      · exact ⟨_, hx', h.takeError e, .refl s s'⟩

/-- A run of `k + 1` steps is a step and a run of `k` steps. -/
theorem core_run_succ {k : Nat} {s t : State} :
    core.run (k + 1) s = .next t ↔ ∃ u, step s = .next u ∧ core.run k u = .next t := by
  have hcore : core.step s = step s := rfl
  simp only [Host.Core.run, hcore]
  cases step s <;> simp

/-- Settles O42, by induction on the number of steps, the two runs side by side. -/
theorem latchesAndPortsAreInvisible : Obligations.LatchesAndPortsAreInvisible := by
  intro k
  induction k with
  | zero =>
    intro s s' t h hrun
    obtain rfl := Host.Outcome.next.inj hrun
    exact ⟨s', rfl, h, SameDeliveries.refl s s'⟩
  | succ k ih =>
    intro s s' t h hrun
    obtain ⟨u, hstep, hrest⟩ := core_run_succ.mp hrun
    obtain ⟨u', hstep', hu, hfirst⟩ := step_sameArchitecture h hstep
    obtain ⟨t', hrest', ht, hlater⟩ := ih u u' t hu hrest
    exact ⟨t', core_run_succ.mpr ⟨u', hstep', hrest'⟩, ht, hfirst.trans hlater⟩

end Sys2Proof.Machine
end

section
/-! The load port (20_memory.md section 4): what a load answers on each state, and what it leaves. -/

namespace Sys2Proof.Machine

/-! ### What a load answers -/

theorem load_reset_of_le {bytes : List Byte} (h : bytes.length ≤ 256) :
    load bytes State.reset = .next { State.reset with mem := State.reset.mem.writeBytes 0 bytes } :=
  (if_pos rfl).trans (if_pos h)

theorem load_reset_of_gt {bytes : List Byte} (h : 256 < bytes.length) :
    load bytes State.reset = .next (takeError (.programTooLarge bytes.length) State.reset) :=
  (if_pos rfl).trans (if_neg (Nat.not_le.mpr h))

theorem load_of_ne_reset {s : State} (bytes : List Byte) (h : s ≠ State.reset) :
    load bytes s = .refused .loadOutsideReset := if_neg h

/-- An accepted load began in the reset state, and wrote its bytes or took the error of a program too large (R30 to R32). -/
theorem load_cases {bytes : List Byte} {s t : State} (h : load bytes s = .next t) :
    s = State.reset ∧ ((bytes.length ≤ 256 ∧ t = { s with mem := s.mem.writeBytes 0 bytes }) ∨
      (256 < bytes.length ∧ t = takeError (.programTooLarge bytes.length) s)) := by
  by_cases hs : s = State.reset
  · subst hs
    rcases Nat.lt_or_ge 256 bytes.length with hlen | hlen
    · exact ⟨rfl, .inr ⟨hlen, Host.Outcome.next.inj (h.symm.trans (load_reset_of_gt hlen))⟩⟩
    · exact ⟨rfl, .inl ⟨hlen, Host.Outcome.next.inj (h.symm.trans (load_reset_of_le hlen))⟩⟩
  · rw [load_of_ne_reset bytes hs] at h
    cases h

/-! ### What a load leaves -/

/-- Writing a block of bytes keeps the invariant: only the memory changes, and it stays canonical. -/
theorem State.Inv.writeBytes {s : State} (hs : s.Inv) (a : Nat) (bytes : List Byte) :
    State.Inv { s with mem := s.mem.writeBytes a bytes } :=
  { hs with mem_wf := Memory.writeBytes_wf s.mem a bytes hs.mem_wf }

/-- Settles O4, by the two ways an accepted load can end. -/
theorem loadKeepsTheInvariant : Obligations.LoadKeepsTheInvariant := by
  intro bytes s t hs hload
  obtain ⟨-, ⟨-, rfl⟩ | ⟨hlen, rfl⟩⟩ := load_cases hload
  · exact hs.writeBytes 0 bytes
  · exact hs.takeError (decide_eq_true hlen)

/-- Settles O47, by what a read gives after a block of bytes was written from address 0. -/
theorem loadWritesTheProgramFromZero : Obligations.LoadWritesTheProgramFromZero := by
  intro bytes hlen
  have hread := Memory.read_writeBytes State.reset.mem 0 bytes resetMeetsTheInvariant.mem_wf
  refine ⟨_, load_reset_of_le hlen, fun c v hv => ?_, fun c hc => ?_, rfl, rfl⟩
  · simp [hread, hv]
  · simp [hread, List.getElem?_eq_none hc]

/-- Settles O48: such a load takes its error and does nothing else. -/
theorem tooLongLoadWritesNothing : Obligations.TooLongLoadWritesNothing := fun _ hlen =>
  ⟨_, load_reset_of_gt hlen, rfl, loadReturns_takeError _ _⟩

/-- After a step the core is halted or its trace shows the instruction that committed. -/
theorem halted_or_trace_ne_nil_of_step {s t : State} (h : step s = .next t) : t.halted = true ∨ t.trace ≠ [] := by
  cases hrun : s.halted with
  | true => exact .inl (eq_of_step_halted hrun h ▸ hrun)
  | false =>
    rcases step_cases hrun h with ⟨i, w, -, -, rfl⟩ | ⟨_, _, -, -, rfl⟩ | ⟨_, -, rfl⟩
    · exact .inr (by simp)
    · exact .inl rfl
    · exact .inl rfl

/-- No step ends in the reset state, where the core runs and the trace is empty. -/
theorem ne_reset_of_step {s t : State} (h : step s = .next t) : t ≠ State.reset := by
  rintro rfl
  exact (halted_or_trace_ne_nil_of_step h).elim Bool.false_ne_true (absurd rfl)

/-- Settles O49: a load is refused on every state but that of reset, and no step ends there. -/
theorem loadIsRefusedOutsideResetAndAfterAStep : Obligations.LoadIsRefusedOutsideResetAndAfterAStep := fun _ _ bytes =>
  ⟨load_of_ne_reset bytes, fun hstep => ⟨ne_reset_of_step hstep, load_of_ne_reset bytes (ne_reset_of_step hstep)⟩⟩

end Sys2Proof.Machine
end

section
/-! The cell a push stores to (20_memory.md sections 2 and 5): no other changes, and the next fetch reads it. -/

namespace Sys2Proof.Machine

/-! ### What an effect stores -/

/-- PUSH stores its register, read after the SP write, at `SP - 1`, the new SP (42_stack.md R64; 90_conflicts.md C5). -/
theorem Effect.mem_push {a : Byte} {s w : State} (h : Effect (.push a) s w) :
    (w.sp.toNat : Int) = s.pushAddress ∧
      ∃ ra, a = regByte ra ∧ w.mem = s.mem.write w.sp ((s.setSp w.sp).reg ra) := by
  obtain ⟨ra, p, ha, hp, hw⟩ := h
  obtain rfl : w.sp = p := hw ▸ State.sp_setSp s p
  exact ⟨hp, ra, ha, congrArg State.mem hw⟩

/-- CALL stores its return address at `SP - 1`, the new SP (43_control.md R68). -/
theorem Effect.mem_call {a : Byte} {s w : State} (h : Effect (.call a) s w) :
    (w.sp.toNat : Int) = s.pushAddress ∧ w.mem = s.mem.write w.sp (BitVec.ofNat 8 (s.pc.toNat + 2)) := by
  obtain ⟨ra, p, -, -, hp, hw⟩ := h
  obtain rfl : w.sp = p := hw ▸ State.sp_setSp s p
  exact ⟨hp, congrArg State.mem hw⟩

/-- An effect leaves the memory as it was, or is that of PUSH or CALL and writes one cell, at `SP - 1`, the new SP (R24). -/
theorem Effect.mem_cases {i : Instr} {s w : State} (h : Effect i s w) :
    w.mem = s.mem ∨ ((∃ a, i = .push a ∨ i = .call a) ∧ (w.sp.toNat : Int) = s.pushAddress ∧
      ∃ v, w.mem = s.mem.write w.sp v) := by
  cases i with
  | printConst | halt => subst h; exact .inl rfl
  | ldi | prn | jmp => obtain ⟨_, -, rfl⟩ := h; exact .inl rfl
  | add | mul | cmp => obtain ⟨_, _, -, -, rfl⟩ := h; exact .inl rfl
  | pop => obtain ⟨_, -, -, rfl⟩ := h; exact .inl rfl
  | ret => obtain ⟨-, rfl⟩ := h; exact .inl rfl
  | jeq | jne => obtain ⟨_, -, rfl⟩ := h; exact .inl (by split <;> rfl)
  | push a =>
    obtain ⟨hp, ra, -, hmem⟩ := h.mem_push
    exact .inr ⟨⟨a, .inl rfl⟩, hp, _, hmem⟩
  | call a =>
    obtain ⟨hp, hmem⟩ := h.mem_call
    exact .inr ⟨⟨a, .inr rfl⟩, hp, _, hmem⟩

/-- Settles O36: what does not commit leaves the memory alone, and an effect writes at most the pushed cell. -/
theorem memoryChangesOnlyAtThePushedCell : Obligations.MemoryChangesOnlyAtThePushedCell := by
  intro s t c hs hstep hne
  rcases step_commits_or_keeps hstep with rfl | ⟨e, rfl⟩ | ⟨i, w, hi, hw, rfl⟩
  · exact absurd rfl hne
  · exact absurd rfl hne
  · rcases hw.mem_cases with hmem | ⟨⟨a, ha⟩, hp, v, hmem⟩
    · exact absurd (by rw [commit_mem, hmem]) hne
    · have hc : c = w.sp := by
        by_contra hcp
        exact hne (by rw [commit_mem, hmem, Memory.read_write _ _ _ _ hs.mem_wf, if_neg hcp])
      exact ⟨⟨a, ha.imp (fun h : i = .push a => h ▸ hi) (fun h : i = .call a => h ▸ hi)⟩, hc ▸ hp, hc.symm⟩

/-! ### The next fetch -/

/-- After a PUSH the cell at SP holds the register; R7 was decremented before it was stored (42_stack.md R64). -/
theorem Effect.read_sp_push {s w : State} {ra : RegIdx} (h : Effect (.push (regByte ra)) s w) (hs : s.mem.wf = true) :
    w.mem.read w.sp = if ra = 7 then w.sp else s.reg ra := by
  obtain ⟨-, q, hq, hmem⟩ := h.mem_push
  obtain rfl := regByte_injective hq
  rw [hmem, Memory.read_write _ _ _ _ hs, if_pos rfl, State.reg_setSp]

theorem Effect.read_sp_call {s w : State} {a : Byte} (h : Effect (.call a) s w) (hs : s.mem.wf = true) :
    w.mem.read w.sp = BitVec.ofNat 8 (s.pc.toNat + 2) := by
  obtain ⟨-, hmem⟩ := h.mem_call
  rw [hmem, Memory.read_write _ _ _ _ hs, if_pos rfl]

/-- Byte `k` of a read from address `a` on is the one at `a + k`. -/
theorem Memory.getElem?_bytesFrom (m : Memory) {a n k : Nat} {c : Byte} (hk : k < n) (hc : a + k = c.toNat) :
    (m.bytesFrom a n)[k]? = some (m.read c) := by
  induction n generalizing a k with
  | zero => omega
  | succ n ih =>
    have hlt : c.toNat < 256 := c.isLt
    have ha : a < Config.memSize := show a < 256 by omega
    simp only [Memory.bytesFrom, if_pos ha]
    cases k with
    | zero =>
      have hac : BitVec.ofNat 8 a = c := by rw [show a = c.toNat from hc, BitVec.ofNat_toNat, BitVec.setWidth_eq]
      rw [List.getElem?_cons_zero, hac]
    | succ k => rw [List.getElem?_cons_succ, ih (by omega) (by omega)]

/-- An instruction that left the core running has committed: an error would have stopped it (60_exceptions.md R75). -/
theorem commit_of_runs_of_running {i : Instr} {s t : State} (hi : Runs s i) (h : step s = .next t)
    (ht : t.halted = false) : ∃ w, Effect i s w ∧ t = commit i s w := by
  rw [step_of_runs hi] at h
  rcases exec_cases i s with ⟨w, hw, hx⟩ | ⟨e, -, hx⟩ <;> obtain rfl := Host.Outcome.next.inj (h.symm.trans hx)
  · exact ⟨w, hw, rfl⟩
  · exact absurd ht.symm Bool.false_ne_true

/-- Settles O46: the window reads the cell at SP, and there PUSH and CALL left what they stored. -/
theorem fetchSeesThePushedByte : Obligations.FetchSeesThePushedByte := by
  intro s t ra k hs hstep ht hk hcell
  have hwin : t.fetchWindow[k]? = some (t.mem.read t.sp) := Memory.getElem?_bytesFrom t.mem hk hcell
  refine ⟨fun hi => ?_, fun hi => ?_⟩ <;> obtain ⟨w, hw, rfl⟩ := commit_of_runs_of_running hi hstep ht
  · exact hwin.trans (congrArg some (hw.read_sp_push hs.mem_wf))
  · exact hwin.trans (congrArg some (hw.read_sp_call hs.mem_wf))

end Sys2Proof.Machine
end

section
/-! The decoder and the encoder, each the inverse of the other (30_encoding.md sections 1 to 3). -/

namespace Sys2Proof

/-! ### What a decode answers -/

theorem decode_of_illegal {c : Byte} (h : lookupOpcode c = none) (tail : List Byte) :
    decode (c :: tail) = .error (.illegalOpcode c) := by
  simp only [decode, h]

theorem decode_of_short {c : Byte} {row : OpcodeRow} {tail : List Byte} (h : lookupOpcode c = some row)
    (hlen : tail.length < operandCount c) : decode (c :: tail) = .error (.truncated (1 + tail.length)) := by
  simp only [decode, h, if_pos hlen]

/-- A decode succeeds exactly on a legal opcode byte with all its operand bytes behind it (R38, R41, R42). -/
theorem decode_eq_ok_iff {bs rest : List Byte} {i : Instr} : decode bs = .ok (i, rest) ↔
    ∃ c tail row, bs = c :: tail ∧ lookupOpcode c = some row ∧ operandCount c ≤ tail.length ∧
      i = row.op.withOperands (tail.getD 0 0#8) (tail.getD 1 0#8) ∧ rest = tail.drop (operandCount c) := by
  constructor
  · intro h
    cases bs with
    | nil => cases h
    | cons c tail =>
      cases hrow : lookupOpcode c with
      | none => rw [decode_of_illegal hrow] at h; cases h
      | some row =>
        rcases Nat.lt_or_ge tail.length (operandCount c) with hlen | hlen
        · rw [decode_of_short hrow hlen] at h; cases h
        · simp only [decode, hrow, if_neg (Nat.not_lt.mpr hlen), Except.ok.injEq, Prod.mk.injEq] at h
          exact ⟨c, tail, row, rfl, hrow, hlen, h.1.symm, h.2.symm⟩
  · rintro ⟨c, tail, row, rfl, hrow, hlen, rfl, rfl⟩
    simp only [decode, hrow, if_neg (Nat.not_lt.mpr hlen)]

/-! ### Operand bytes -/

/-- An instruction is its kind with its own operand bytes, whatever bytes follow them (R38). -/
theorem withOperands_operands_append (i : Instr) (rest : List Byte) :
    i.op.withOperands ((i.operands ++ rest).getD 0 0#8) ((i.operands ++ rest).getD 1 0#8) = i := by
  cases i <;> rfl

/-- The operand bytes a kind keeps are as many as bits 7-6 of its opcode byte say (R36, R38). -/
theorem operands_withOperands (op : Op) (a b : Byte) :
    (op.withOperands a b).operands = [a, b].take (operandCount op.opcode) := by
  cases op <;> rfl

/-- The operand bytes read one by one from the front of a list are its first `n` bytes, for `n` up to 2. -/
theorem take_getD_pair {tail : List Byte} {n : Nat} (hn : n ≤ 2) (hlen : n ≤ tail.length) :
    [tail.getD 0 0#8, tail.getD 1 0#8].take n = tail.take n := by
  match tail, n with
  | _, 0 => rfl
  | _ :: _, 1 => rfl
  | _ :: _ :: _, 2 => rfl

/-- An encoding is at most as long as the fetch window (R41). -/
theorem length_encode_le (i : Instr) : (encode i).length ≤ 3 := by
  obtain ⟨row, hrow, -⟩ := lookupOpcode_opcode i.op
  rw [encode, List.length_cons, Machine.length_operands]
  exact Nat.succ_le_succ (operandCount_le_two hrow)

/-! ### The two directions -/

/-- Settles O6: the opcode byte selects the row of the instruction's kind, and its operand bytes are the ones read. -/
theorem decodeOfEncodeIsTheInstruction : Obligations.DecodeOfEncodeIsTheInstruction := by
  intro i rest
  obtain ⟨row, hrow, hop⟩ := lookupOpcode_opcode i.op
  have hcount := Machine.length_operands i
  refine decode_eq_ok_iff.mpr ⟨_, i.operands ++ rest, row, rfl, hrow, ?_, ?_, ?_⟩
  · rw [← hcount, List.length_append]
    exact Nat.le_add_right _ _
  · rw [hop, withOperands_operands_append]
  · rw [← hcount, List.drop_left]

/-- Settles O7: a legal byte is the opcode of its row's kind, and the operand bytes taken are those the instruction keeps. -/
theorem encodeOfDecodeIsTheBytesRead : Obligations.EncodeOfDecodeIsTheBytesRead := by
  intro bs i rest h
  obtain ⟨c, tail, row, rfl, hrow, hlen, rfl, rfl⟩ := decode_eq_ok_iff.mp h
  have hops : (row.op.withOperands (tail.getD 0 0#8) (tail.getD 1 0#8)).operands = tail.take (operandCount c) := by
    rw [operands_withOperands, ← lookupOpcode_byte hrow, take_getD_pair (operandCount_le_two hrow) hlen]
  rw [encode, Op.op_withOperands, ← lookupOpcode_byte hrow, hops, List.cons_append, List.take_append_drop]

/-- Settles O8: the words are encodings. -/
theorem specEncodingsDecodeAsWritten : Obligations.SpecEncodingsDecodeAsWritten :=
  have h := decodeOfEncodeIsTheInstruction
  ⟨h .ret [], h (.jne 3#8) [], h (.cmp 0#8 2#8) [], h (.ldi 1#8 37#8) [], h (.push 7#8) [9#8]⟩

end Sys2Proof
end

section
/-! The fetch of a running core: the instruction stored at pc, and the three errors (30_encoding.md section 6). -/

namespace Sys2Proof.Machine

/-! ### The fetch window -/

/-- Bytes the memory holds from address `a` on are what a read of as many bytes or more from `a` begins with. -/
theorem HoldsBytes.isPrefix_bytesFrom {s : State} {a n : Nat} {bs : List Byte} (h : HoldsBytes s a bs)
    (hn : bs.length ≤ n) : bs <+: s.mem.bytesFrom a n := by
  rw [List.prefix_iff_getElem?]
  intro k hk
  obtain ⟨hin, hread⟩ := h k bs[k] (List.getElem?_eq_getElem hk)
  have hcell : a + k = (BitVec.ofNat 8 (a + k)).toNat := by rw [BitVec.toNat_ofNat, Nat.mod_eq_of_lt hin]
  rw [Memory.getElem?_bytesFrom s.mem (Nat.lt_of_lt_of_le hk hn) hcell, hread]

/-- Inside the memory the window begins with the byte at pc. -/
theorem fetchWindow_eq_cons {s : State} (hpc : s.pc.toNat < 256) :
    ∃ tail, s.fetchWindow = s.mem.read (BitVec.ofNat 8 s.pc.toNat) :: tail :=
  ⟨_, if_pos hpc⟩

/-! ### How a running core steps -/

theorem step_of_decode_error {s : State} {d : DecodeError} (hrun : s.halted = false)
    (h : decode s.fetchWindow = .error d) : step s = .next (takeError (fetchError s.pc d) s) := by
  simp [step_running s hrun, fetch, h]

/-- Settles O9, by the equation of a step of a running core. -/
theorem stepRunsTheDecodedInstruction : Obligations.StepRunsTheDecodedInstruction := fun _ _ => step_of_runs

/-- Settles O10: the fetch window begins with the encoding, which decodes to the instruction. -/
theorem stepRunsTheInstructionStoredAtPc : Obligations.StepRunsTheInstructionStoredAtPc := by
  intro s i hrun hbytes
  obtain ⟨rest, hwin⟩ : encode i <+: s.fetchWindow := hbytes.isPrefix_bytesFrom (length_encode_le i)
  exact step_of_runs ⟨hrun, rest, hwin ▸ decodeOfEncodeIsTheInstruction i rest⟩

/-- Settles O11, by the first branch of the step and of what it returns. -/
theorem haltedStepChangesNothing : Obligations.HaltedStepChangesNothing := fun s hh =>
  ⟨step_halted s hh, stepReturns_halted hh s⟩

/-! ### The errors of a fetch -/

/-- Settles O12: past the memory the window is empty, and the byte missing is the one at pc. -/
theorem opcodeFetchPastMemoryRaises : Obligations.OpcodeFetchPastMemoryRaises := by
  intro s hrun hpc
  have hwin : s.fetchWindow = [] := List.eq_nil_of_length_eq_zero (by rw [s.length_fetchWindow]; omega)
  have hd : decode s.fetchWindow = .error (.truncated 0) := hwin ▸ rfl
  simpa [fetchError] using step_of_decode_error hrun hd

/-- The illegal opcode bytes are those in no row of the map (R42, R43). -/
theorem lookupOpcode_eq_none_iff {c : Byte} : lookupOpcode c = none ↔ c ∉ opcodeMap.map OpcodeRow.byte := by
  simp [lookupOpcode, List.find?_eq_none]

/-- An illegal opcode byte raises whatever bytes follow it (R44, R48). -/
theorem step_of_illegal {s : State} (hrun : s.halted = false) (hpc : s.pc.toNat < 256)
    (h : lookupOpcode (s.mem.read (BitVec.ofNat 8 s.pc.toNat)) = none) :
    step s = .next (takeError (.illegalInstruction (s.mem.read (BitVec.ofNat 8 s.pc.toNat)) s.pc) s) := by
  obtain ⟨tail, hwin⟩ := fetchWindow_eq_cons hpc
  exact step_of_decode_error hrun (hwin ▸ decode_of_illegal h tail)

/-- Settles O13: the bytes listed are those of the map's rows; the illegal ones are counted. -/
theorem illegalOpcodeRaisesBeforeOperandFetch : Obligations.IllegalOpcodeRaisesBeforeOperandFetch :=
  ⟨fun _ hrun hpc hc => step_of_illegal hrun hpc (lookupOpcode_eq_none_iff.mpr hc), by decide +kernel⟩

/-- Settles O14: the window ends at cell 255 before the opcode byte has its operand bytes. -/
theorem operandFetchPastMemoryRaises : Obligations.OperandFetchPastMemoryRaises := by
  intro s row hrun hpc hrow hpast
  obtain ⟨hmem, hbyte⟩ := lookupOpcode_some hrow
  obtain ⟨tail, hwin⟩ := fetchWindow_eq_cons hpc
  have hlen := s.length_fetchWindow
  rw [hwin, List.length_cons] at hlen
  rw [opcodeMap_operands row hmem, hbyte] at hpast
  have hle := operandCount_le_two hrow
  have hd : decode s.fetchWindow = .error (.truncated (1 + tail.length)) :=
    hwin ▸ decode_of_short hrow (by omega)
  have haddr : (s.pc.toNat : Int) + (1 + tail.length : Nat) = 256 := by omega
  rw [step_of_decode_error hrun hd, fetchError, haddr]

/-- Settles O52: the byte at pc 0 of the empty memory is 0, which is illegal. -/
theorem unloadedCoreRaisesIllegalInstruction : Obligations.UnloadedCoreRaisesIllegalInstruction :=
  step_of_illegal (s := State.reset) rfl (by decide) rfl

end Sys2Proof.Machine
end

section
/-! The register checks of R50: the first operand byte that names no register is the one raised. -/

namespace Sys2Proof.Machine

/-- The byte names none of the eight registers (30_encoding.md R39). -/
def namesNoRegister (b : Byte) : Bool := decide (8 ≤ b.toNat)

theorem namesNoRegister_regByte (r : RegIdx) : namesNoRegister (regByte r) = false :=
  decide_eq_false (by rw [regByte_toNat]; omega)

/-- One register check raises its byte if that is bad. -/
theorem withReg_of_find? {α : Type} {a v : Byte} (k : RegIdx → Except MachineError α)
    (h : [a].find? namesNoRegister = some v) : withReg a k = .error (.registerOutOfRange v) := by
  obtain rfl : v = a := List.mem_singleton.mp (List.mem_of_find?_eq_some h)
  have hv : namesNoRegister v = true := List.find?_some h
  exact withReg_bad v k (of_decide_eq_true hv)

/-- Two register checks, one inside the other, raise the first bad byte: the outer one's before the inner one's (R50). -/
theorem withReg_withReg_of_find? {α : Type} {a b v : Byte} (k : RegIdx → RegIdx → Except MachineError α)
    (h : [a, b].find? namesNoRegister = some v) :
    withReg a (fun ra => withReg b (k ra)) = .error (.registerOutOfRange v) := by
  rcases regByte_or_bad a with ⟨ra, rfl⟩ | ha
  · rw [List.find?_cons_of_neg (by simp [namesNoRegister_regByte])] at h
    rw [withReg_regByte, withReg_of_find? (k ra) h]
  · have hbad : namesNoRegister a = true := decide_eq_true ha
    rw [List.find?_cons_of_pos hbad] at h
    rw [withReg_bad a _ ha, Option.some.inj h]

/-- Settles O15: each instruction checks `a`, and those with two registers then `b`, before anything else it does. -/
theorem registerOperandAboveSevenRaises : Obligations.RegisterOperandAboveSevenRaises := by
  intro i s v h
  cases i with
  | printConst | halt | ret => cases h
  | ldi | prn | push | pop | call | jmp | jeq | jne => exact congrArg (finish _ s) (withReg_of_find? _ h)
  | add | mul | cmp => exact congrArg (finish _ s) (withReg_withReg_of_find? _ h)

end Sys2Proof.Machine
end

section
/-! The run port (30_encoding.md R54): a run is the steps of a running core until one halts it. -/

namespace Sys2Proof.Machine

/-- A step has an answer: on a halted core, after a fetch that failed, and for every instruction. -/
theorem exists_step_eq_next (s : State) : ∃ t, step s = .next t := by
  cases hrun : s.halted with
  | true => exact ⟨s, step_halted s hrun⟩
  | false =>
    rcases fetch_cases s with ⟨i, rest, hd, -⟩ | ⟨d, hd, -⟩
    · rw [step_of_runs ⟨hrun, rest, hd⟩]
      rcases exec_cases i s with ⟨w, -, hx⟩ | ⟨e, -, hx⟩ <;> exact ⟨_, hx⟩
    · exact ⟨_, step_of_decode_error hrun hd⟩

/-! ### One call of run -/

theorem run_halted {s : State} (hh : s.halted = true) (fuel : Nat) : run fuel s = .ok s := by
  cases fuel <;> simp [run, hh]

theorem run_zero_running {s : State} (hrun : s.halted = false) : run 0 s = .notFinished s := by
  simp [run, hrun]

theorem run_succ_error {s t : State} {e : MachineError} (fuel : Nat) (hrun : s.halted = false)
    (hstep : step s = .next t) (herr : t.err = some e) : run (fuel + 1) s = .error e t := by
  simp [run, hrun, hstep, herr]

theorem run_succ_ok {s t : State} (fuel : Nat) (hrun : s.halted = false) (hstep : step s = .next t)
    (herr : t.err = none) : run (fuel + 1) s = run fuel t := by
  simp [run, hrun, hstep, herr]

/-! ### The answers of run -/

/-- Settles O50, by induction on the fuel: the first step halts the core or leaves a running one to a run with less fuel. -/
theorem runEndsExactlyWhenHalted : Obligations.RunEndsExactlyWhenHalted := by
  intro fuel
  induction fuel with
  | zero => exact fun s _ => ⟨fun hh => run_halted hh 0, fun hrun => .inr (.inr ⟨s, run_zero_running hrun, hrun, rfl⟩)⟩
  | succ fuel ih =>
    intro s hs
    refine ⟨fun hh => run_halted hh _, fun hrun => ?_⟩
    obtain ⟨t, hstep⟩ := exists_step_eq_next s
    have ht : t.Inv := stepKeepsTheInvariant s t hs hstep
    have hfrom : ∀ u, (∃ k ≤ fuel, core.run k t = .next u) → ∃ k ≤ fuel + 1, core.run k s = .next u :=
      fun u ⟨k, hk, hu⟩ => ⟨k + 1, Nat.succ_le_succ hk, core_run_succ.mpr ⟨t, hstep, hu⟩⟩
    have hself : ∃ k ≤ fuel + 1, core.run k s = .next t := hfrom t ⟨0, Nat.zero_le _, rfl⟩
    cases herr : t.err with
    | some e =>
      have hhalted : t.halted = true := ht.err_halted (by simp [herr])
      exact .inr (.inl ⟨e, t, run_succ_error fuel hrun hstep herr, hhalted, herr, hself⟩)
    | none =>
      rw [run_succ_ok fuel hrun hstep herr]
      cases hth : t.halted with
      | true => exact .inl ⟨t, run_halted hth fuel, ⟨hth, herr⟩, hself⟩
      | false =>
        rcases (ih t ht).2 hth with ⟨u, hu, hend, hk⟩ | ⟨e, u, hu, huh, hue, hk⟩ | ⟨u, hu, huh, hk⟩
        · exact .inl ⟨u, hu, hend, hfrom u hk⟩
        · exact .inr (.inl ⟨e, u, hu, huh, hue, hfrom u hk⟩)
        · exact .inr (.inr ⟨u, hu, huh, core_run_succ.mpr ⟨t, hstep, hk⟩⟩)

/-- Settles O51, by induction on the fuel: both runs take the same first step. -/
theorem moreFuelKeepsTheResultOfRun : Obligations.MoreFuelKeepsTheResultOfRun := by
  intro fuel more
  induction fuel with
  | zero =>
    intro s hfin
    cases hrun : s.halted with
    | true => rw [run_halted hrun, run_halted hrun]
    | false => exact absurd (run_zero_running hrun) (hfin s)
  | succ fuel ih =>
    intro s hfin
    rw [Nat.succ_add]
    cases hrun : s.halted with
    | true => rw [run_halted hrun, run_halted hrun]
    | false =>
      obtain ⟨t, hstep⟩ := exists_step_eq_next s
      cases herr : t.err with
      | some e => rw [run_succ_error _ hrun hstep herr, run_succ_error _ hrun hstep herr]
      | none =>
        rw [run_succ_ok fuel hrun hstep herr] at hfin
        rw [run_succ_ok _ hrun hstep herr, run_succ_ok _ hrun hstep herr, ih t hfin]

end Sys2Proof.Machine
end

section
/-! PRINT_CONST, HALT, LDI and PRN (40_basic.md): what each of their commits holds and what it leaves as it was. -/

namespace Sys2Proof.Machine

/-- A step that leaves no error latched returns ok, whether or not the core was halted. -/
theorem stepReturns_of_err_eq_none (s : State) {t : State} (h : t.err = none) : stepReturns s t = none := by
  cases hrun : s.halted with
  | true => exact stepReturns_halted hrun t
  | false => exact (stepReturns_running hrun t).trans h

/-- A commit of a working copy advanced past instruction `i` leaves pc that instruction's length on (30_encoding.md R52). -/
theorem commit_advance_pc (i : Instr) (s w : State) {n : Nat} (hn : i.length = n) :
    (commit i s (w.advance i)).pc = w.pc + BitVec.ofNat 9 n := hn ▸ rfl

/-- Settles O18: the commit of PRINT_CONST differs from `s` by the event emitted, pc, the latches and the trace. -/
theorem printConstEmitsItsEvent : Obligations.PrintConstEmitsItsEvent := by
  intro s
  refine ⟨_, exec_printConst s, ?output, ?pc, fun _ => rfl, fun _ => rfl, rfl, ⟨rfl, rfl⟩, committed_commit _ _ _⟩
  case output => exact State.emit_output s .printConst
  case pc => exact commit_advance_pc .printConst s _ Instr.length_printConst

/-- Settles O19: the commit of HALT is a halted core, on which the next step does nothing. -/
theorem haltStopsTheCore : Obligations.HaltStopsTheCore := by
  intro s
  refine ⟨_, exec_halt s, rfl, rfl, ?pc, fun _ => rfl, fun _ => rfl, rfl, rfl, committed_commit _ _ _, ?next, ?returns⟩
  case pc => exact commit_advance_pc .halt s _ Instr.length_halt
  case next => exact step_halted _ rfl
  case returns => exact fun herr => stepReturns_of_err_eq_none s herr

/-- Settles O20: the commit of LDI reads the immediate back from its register, and every other register as before. -/
theorem ldiWritesTheImmediate : Obligations.LdiWritesTheImmediate := by
  intro s ra imm
  refine ⟨_, exec_ldi s ra imm, ?same, ?other, ?pc, fun _ => rfl, rfl, ⟨rfl, rfl⟩, rfl, committed_commit _ _ _⟩
  case same => exact State.reg_setReg_self s ra imm
  case other => exact fun r hr => (State.reg_setReg s ra r imm).trans (if_neg hr)
  case pc => exact commit_advance_pc _ s _ (Instr.length_ldi _ imm)

/-- Settles O21: the commit of PRN differs from `s` by the event with the register's value, pc, the latches and the trace. -/
theorem prnEmitsTheRegister : Obligations.PrnEmitsTheRegister := by
  intro s ra
  refine ⟨_, exec_prn s ra, ?output, ?pc, fun _ => rfl, fun _ => rfl, rfl, ⟨rfl, rfl⟩, committed_commit _ _ _⟩
  case output => exact State.emit_output s (.printReg (s.reg ra))
  case pc => exact commit_advance_pc _ s _ (Instr.length_prn _)

end Sys2Proof.Machine
end

section
/-! ADD, MUL and CMP (41_alu.md): the byte computed, what each commit holds, and what it leaves as it was. -/

namespace Sys2Proof.Machine

/-! ### The bytes computed -/

/-- After bits `0..n-1` of `vb` the shift-and-add loop holds `va` times the number they form (41_alu.md R61). -/
theorem shiftAdd_eq_mul_setWidth (va vb : Byte) (n : Nat) : shiftAdd va vb n = va * (vb.setWidth n).setWidth 8 := by
  induction n with
  | zero => rw [shiftAdd, BitVec.of_length_zero (x := vb.setWidth 0), BitVec.setWidth_zero, BitVec.mul_zero]
  | succ n ih =>
    rw [BitVec.setWidth_setWidth_succ_eq_setWidth_setWidth_add_twoPow, BitVec.mul_add, ← ih, BitVec.and_twoPow, shiftAdd]
    cases vb.getLsbD n with
    | true => rw [if_pos rfl, if_pos rfl, BitVec.mul_twoPow_eq_shiftLeft]
    | false => rw [if_neg Bool.false_ne_true, if_neg Bool.false_ne_true, BitVec.mul_zero, BitVec.add_zero]

/-- All eight bits of `vb` form `vb` itself, so the loop's result is the product. -/
theorem mulBytes_eq_mul (va vb : Byte) : mulBytes va vb = va * vb := by
  rw [mulBytes, shiftAdd_eq_mul_setWidth, BitVec.setWidth_eq, BitVec.setWidth_eq]

theorem toNat_mulBytes (va vb : Byte) : (mulBytes va vb).toNat = (va.toNat * vb.toNat) % 256 := by
  rw [mulBytes_eq_mul, BitVec.toNat_mul]

theorem toNat_addBytes (va vb : Byte) : (addBytes va vb).toNat = (va.toNat + vb.toNat) % 256 :=
  BitVec.toNat_add va vb

theorem equalFlag_eq_true_iff (x y : Byte) : equalFlag x y = true ↔ x = y := decide_eq_true_iff

/-! ### The three instructions -/

/-- The commit of a three-byte instruction that writes one register: the value, and all that stays. -/
theorem commit_setReg_advance (i : Instr) (s : State) (ra : RegIdx) (v : Byte) (hlen : i.length = 3) :
    let t := commit i s ((s.setReg ra v).advance i)
    t.reg ra = v ∧ (∀ r, r ≠ ra → t.reg r = s.reg r) ∧ t.pc = s.pc + 3#9 ∧
      SameMemory s t ∧ t.flE = s.flE ∧ SameStatus s t ∧ t.output = s.output ∧ Committed i s t := by
  refine ⟨?same, ?other, ?pc, fun _ => rfl, rfl, ⟨rfl, rfl⟩, rfl, committed_commit _ _ _⟩
  case same => exact State.reg_setReg_self s ra v
  case other => exact fun r hr => (State.reg_setReg s ra r v).trans (if_neg hr)
  case pc => exact commit_advance_pc i s _ hlen

/-- Settles O22: ADD commits the write of the sum to its first register. -/
theorem addWritesTheSum : Obligations.AddWritesTheSum := by
  intro s ra rb
  obtain ⟨hreg, hrest⟩ := commit_setReg_advance (.add (regByte ra) (regByte rb)) s ra
    (addBytes (s.reg ra) (s.reg rb)) (Instr.length_add _ _)
  exact ⟨_, exec_add s ra rb, (congrArg BitVec.toNat hreg).trans (toNat_addBytes _ _), hrest⟩

/-- Settles O23: MUL commits the write of the loop's result to its first register, and that is the product. -/
theorem mulWritesTheProduct : Obligations.MulWritesTheProduct := by
  intro s ra rb
  obtain ⟨hreg, hrest⟩ := commit_setReg_advance (.mul (regByte ra) (regByte rb)) s ra
    (mulBytes (s.reg ra) (s.reg rb)) (Instr.length_mul _ _)
  exact ⟨_, exec_mul s ra rb, (congrArg BitVec.toNat hreg).trans (toNat_mulBytes _ _), hrest⟩

/-- An instruction that changed FL is CMP: an error leaves FL alone, and so does every other effect (10_state.md R13). -/
theorem eq_cmp_of_exec_of_flE_ne {i : Instr} {s t : State} (h : exec i s = .next t) (hne : t.flE ≠ s.flE) :
    ∃ a b, i = .cmp a b := by
  rcases exec_cases i s with ⟨w, hw, hx⟩ | ⟨e, -, hx⟩ <;> obtain rfl := Host.Outcome.next.inj (h.symm.trans hx)
  · exact hw.eq_cmp_of_flE_ne hne
  · exact absurd rfl hne

/-- Settles O24: the commit of CMP differs from `s` by FL, pc, the latches and the trace, and nothing else writes FL. -/
theorem cmpSetsTheEqualFlag : Obligations.CmpSetsTheEqualFlag := by
  intro s
  refine ⟨fun ra rb => ?cmp, fun i t hop hx => ?others⟩
  case cmp =>
    refine ⟨_, exec_cmp s ra rb, ?flag, ?pc, fun _ => rfl, fun _ => rfl, ⟨rfl, rfl⟩, rfl, committed_commit _ _ _⟩
    case flag => exact equalFlag_eq_true_iff _ _
    case pc => exact commit_advance_pc _ s _ (Instr.length_cmp _ _)
  case others =>
    by_contra hne
    obtain ⟨a, b, rfl⟩ := eq_cmp_of_exec_of_flE_ne hx hne
    exact hop rfl

end Sys2Proof.Machine
end

section
/-! PUSH, POP, CALL and RET (42_stack.md, 43_control.md): the cell and the stack pointer each commit leaves, its frame, and the
law of PUSH then POP. -/

namespace Sys2Proof.Machine

/-! ### Moving the stack pointer -/

/-- A write of SP leaves the other seven registers alone (10_state.md R9). -/
theorem State.reg_setSp_of_ne (s : State) (v : Byte) {r : RegIdx} (hr : r ≠ 7) : (s.setSp v).reg r = s.reg r :=
  (State.reg_setSp s r v).trans (if_neg hr)

theorem State.sp_setReg (s : State) (ra : RegIdx) (v : Byte) : (s.setReg ra v).sp = if ra = 7 then v else s.sp :=
  (State.reg_setReg s ra 7 v).trans (if_congr eq_comm rfl rfl)

/-- What PUSH and CALL share: SP is the new address, the cell there holds the byte stored, and every other register and cell is
as it was (42_stack.md R63, 20_memory.md R24). -/
theorem setSp_store_frame {s : State} (a v : Byte) (hs : s.mem.wf = true) :
    let w := (s.setSp a).store a v
    w.sp = a ∧ (∀ r, r ≠ 7 → w.reg r = s.reg r) ∧
      w.mem.read a = v ∧ (∀ c, c ≠ a → w.mem.read c = s.mem.read c) := by
  refine ⟨State.sp_setSp s a, fun r hr => State.reg_setSp_of_ne s a hr, ?same, fun c hc => ?other⟩
  case same => exact (Memory.read_write s.mem a v a hs).trans (if_pos rfl)
  case other => exact (Memory.read_write s.mem a v c hs).trans (if_neg hc)

/-! ### The four instructions -/

/-- Settles O25: PUSH commits the store of its register, read after the SP write, at the new SP. -/
theorem pushStoresBelowTheStackPointer : Obligations.PushStoresBelowTheStackPointer := by
  intro s ra hs
  refine ⟨fun a ha => ?completes, exec_push_error s ra⟩
  obtain ⟨hsp, hregs, hcell, hcells⟩ := setSp_store_frame a ((s.setSp a).reg ra) hs
  refine ⟨_, exec_push s ra a ha, hsp, hregs, ?cell, hcells, ?pc, rfl, ⟨rfl, rfl⟩, rfl, committed_commit _ _ _⟩
  case cell => exact hcell.trans (State.reg_setSp s ra a)
  case pc => exact commit_advance_pc _ _ _ (Instr.length_push _)

/-- Settles O26: POP's SP write adds one to the SP its load leaves, which is the loaded byte for R7. -/
theorem popLoadsAndRaisesTheStackPointer : Obligations.PopLoadsAndRaisesTheStackPointer := by
  intro s ra p hp
  have hload : (s.setReg ra s.top).sp = p := (State.sp_setReg s ra s.top).trans hp.symm
  refine ⟨fun hne => ?completes, fun htop => exec_pop_error s ra (hload.trans htop)⟩
  refine ⟨_, exec_pop s ra (hload ▸ hne), ?sp, ?loaded, ?others, ?pc, fun _ => rfl, rfl, ⟨rfl, rfl⟩, rfl,
    committed_commit _ _ _⟩
  case sp => exact hload ▸ State.sp_setSp (s.setReg ra s.top) _
  case loaded => exact fun hra => (State.reg_setSp_of_ne _ _ hra).trans (State.reg_setReg_self s ra s.top)
  case others =>
    exact fun r hr hra => (State.reg_setSp_of_ne _ _ hr).trans ((State.reg_setReg s ra r s.top).trans (if_neg hra))
  case pc => exact commit_advance_pc _ _ _ (Instr.length_pop _)

/-- Settles O27: CALL checks its return address, then SP, and commits the store of that address at the new SP and the jump. -/
theorem callPushesTheReturnAddress : Obligations.CallPushesTheReturnAddress := by
  intro s ra hs
  refine ⟨exec_call_return_error s ra, exec_call_stack_error s ra, fun hpc a ha => ?completes⟩
  obtain ⟨hsp, hregs, hcell, hcells⟩ := setSp_store_frame a (BitVec.ofNat 8 (s.pc.toNat + 2)) hs
  refine ⟨_, exec_call s ra a hpc ha, hsp, hregs, ?cell, hcells, ?pc, rfl, ⟨rfl, rfl⟩, rfl, committed_commit _ _ _⟩
  case cell => exact (congrArg BitVec.toNat hcell).trans ((BitVec.toNat_ofNat _ 8).trans (Nat.mod_eq_of_lt (by omega)))
  case pc => exact congrArg (BitVec.setWidth 9) (State.reg_setSp s ra a)

/-- Settles O28: RET commits the SP write and the jump to the byte SP addressed before it. -/
theorem retPopsThePc : Obligations.RetPopsThePc := by
  intro s
  refine ⟨fun hne => ⟨_, exec_ret s hne, rfl, ?sp, ?regs, fun _ => rfl, rfl, ⟨rfl, rfl⟩, rfl, committed_commit _ _ _⟩,
    exec_ret_error s⟩
  case sp => exact State.sp_setSp s _
  case regs => exact fun r hr => State.reg_setSp_of_ne s _ hr

/-! ### The law of the pair -/

/-- Settles O44: POP finds SP at PUSH's cell, which is not 255, and takes from it the byte PUSH stored there. -/
theorem pushThenPopRestoresTheStack : Obligations.PushThenPopRestoresTheStack := by
  intro s t ra rc hs hsp hpush
  obtain ⟨a, ha⟩ := (pushAddress_or_zero s).resolve_right hsp
  obtain ⟨t', hpush', hta, hregs, hcell, -⟩ := (pushStoresBelowTheStackPointer s ra hs).1 a ha
  obtain rfl : t = t' := Host.Outcome.next.inj (hpush.symm.trans hpush')
  have hback : a + 1#8 = s.sp := by rw [eq_sp_sub_one_of_pushAddress ha, BitVec.sub_add_cancel]
  have hne : a ≠ 255#8 := fun h => hsp (by rw [← hback, h]; rfl)
  refine ⟨fun hra hrc => ?general, fun hra hrc => ?stackPointer⟩
  case general =>
    rw [if_neg hra] at hcell
    obtain ⟨u, hpop, husp, hload, hothers, -, hmem, -⟩ :=
      (popLoadsAndRaisesTheStackPointer t rc a (by rw [if_neg hrc, hta])).1 hne
    refine ⟨u, hpop, ?moved, husp.trans hback, ?kept, fun r hr => ?other⟩
    case moved => rw [hload hrc, hta, hcell]
    case kept => rw [← eq_sp_sub_one_of_pushAddress ha, hmem a, hcell]
    case other =>
      by_cases hr7 : r = 7
      · subst hr7
        exact husp.trans hback
      · rw [hothers r hr7 hr, hregs r hr7]
  case stackPointer =>
    rw [if_pos hra] at hcell
    obtain ⟨u, hpop, husp, -⟩ := (popLoadsAndRaisesTheStackPointer t rc a (by rw [if_pos hrc, hta, hcell])).1 hne
    exact ⟨u, hpop, husp.trans hback⟩

end Sys2Proof.Machine
end

section
/-! JMP, JEQ and JNE (43_control.md), which move pc and nothing else, and the law of CALL then RET. -/

namespace Sys2Proof.Machine

/-! ### The jumps -/

/-- The commit of a working copy in which pc alone was written: all that stays as it was. -/
theorem commit_frame_of_eq_setPc (i : Instr) {s w : State} {v : PcWord} (hw : w = s.setPc v) :
    let t := commit i s w
    SameRegs s t ∧ SameMemory s t ∧ t.flE = s.flE ∧ SameStatus s t ∧ t.output = s.output ∧ Committed i s t := by
  subst hw
  exact ⟨fun _ => rfl, fun _ => rfl, rfl, ⟨rfl, rfl⟩, rfl, committed_commit _ _ _⟩

/-- Settles O29: JMP commits the jump, which writes pc alone. -/
theorem jmpGoesToTheRegister : Obligations.JmpGoesToTheRegister := fun s ra =>
  ⟨_, exec_jmp s ra, rfl, commit_frame_of_eq_setPc _ rfl⟩

/-- Settles O30: JEQ commits the jump or the advance as FL says, and either writes pc alone. -/
theorem jeqJumpsWhenEqual : Obligations.JeqJumpsWhenEqual := by
  intro s ra
  refine ⟨_, exec_jeq s ra, fun hE => ?taken, fun hE => ?fallsThrough,
    commit_frame_of_eq_setPc _ (apply_ite s.setPc _ _ _).symm⟩
  case taken => exact congrArg State.pc (if_pos hE)
  case fallsThrough =>
    rw [if_neg (ne_true_of_eq_false hE)]
    exact commit_advance_pc _ s s (Instr.length_jeq _)

/-- Settles O31: JNE commits the jump or the advance as FL says, and either writes pc alone. -/
theorem jneJumpsWhenNotEqual : Obligations.JneJumpsWhenNotEqual := by
  intro s ra
  refine ⟨_, exec_jne s ra, fun hE => ?taken, fun hE => ?fallsThrough,
    commit_frame_of_eq_setPc _ (apply_ite s.setPc _ _ _).symm⟩
  case taken => exact congrArg State.pc (if_neg (ne_true_of_eq_false hE))
  case fallsThrough =>
    rw [if_pos hE]
    exact commit_advance_pc _ s s (Instr.length_jne _)

/-! ### The law of CALL then RET -/

/-- Where a push has room, its cell is one below SP, so a pop from there has room too and brings SP back (42_stack.md R63). -/
theorem exists_pushAddress_of_sp_ne_zero {s : State} (hsp : s.sp ≠ 0#8) :
    ∃ a : Byte, (a.toNat : Int) = s.pushAddress ∧ a ≠ 255#8 ∧ a + 1#8 = s.sp := by
  obtain ⟨a, ha⟩ := (pushAddress_or_zero s).resolve_right hsp
  have hback : a + 1#8 = s.sp := by rw [eq_sp_sub_one_of_pushAddress ha, BitVec.sub_add_cancel]
  refine ⟨a, ha, fun htop => hsp ?_, hback⟩
  rw [← hback, htop]
  rfl

/-- Settles O45: RET finds SP at CALL's cell, which is not 255, and takes from it the return address CALL stored there. -/
theorem callThenRetReturns : Obligations.CallThenRetReturns := by
  intro s t u ra hs hsp hpc hcall husp hutop
  obtain ⟨a, ha, hne, hback⟩ := exists_pushAddress_of_sp_ne_zero hsp
  obtain ⟨t', hcall', hta, -, hcell, -⟩ := (callPushesTheReturnAddress s ra hs).2.2 hpc a ha
  obtain rfl : t = t' := Host.Outcome.next.inj (hcall.symm.trans hcall')
  have hua : u.sp = a := husp.trans hta
  obtain ⟨w, hret, hwpc, hwsp, -⟩ := (retPopsThePc u).1 (hua ▸ hne)
  refine ⟨w, hret, ?pc, ?sp⟩
  case pc =>
    calc w.pc.toNat = (u.mem.read u.sp).toNat := by
          rw [hwpc, BitVec.toNat_setWidth_of_le (by decide)]
      _ = (t.mem.read a).toNat := by rw [hutop, hta]
      _ = s.pc.toNat + 2 := hcell
  case sp => rw [hwsp, hua, hback]

end Sys2Proof.Machine
end

section
/-! The output and trace ports (60_exceptions.md sections 5 and 6): the event each instruction emits is the one its snapshot
shows, and a snapshot shows the bytes that were fetched. -/

namespace Sys2Proof

/-- No two kinds share an opcode byte: the map finds one row for each byte, and that row's kind (30_encoding.md R42). -/
theorem Op.opcode_injective : Function.Injective Op.opcode := by
  intro p q h
  obtain ⟨rowP, hrowP, rfl⟩ := lookupOpcode_opcode p
  obtain ⟨rowQ, hrowQ, rfl⟩ := lookupOpcode_opcode q
  rw [h, hrowQ] at hrowP
  exact congrArg OpcodeRow.op (Option.some.inj hrowP).symm

end Sys2Proof

namespace Sys2Proof.Machine

/-! ### What is emitted -/

/-- PRINT_CONST and PRN append their one event, and PRN leaves the registers it shows; no other effect touches the output
(60_exceptions.md R81). -/
theorem Effect.output_cases {i : Instr} {s w : State} (h : Effect i s w) :
    (i.op ≠ .printConst ∧ i.op ≠ .prn ∧ w.output = s.output) ∨
      (i = .printConst ∧ w.output = s.output ++ [.printConst]) ∨
      ∃ r : RegIdx, i = .prn (regByte r) ∧ w.regs = s.regs ∧ w.output = s.output ++ [.printReg (s.reg r)] := by
  cases i with
  | printConst => subst h; exact .inr (.inl ⟨rfl, rfl⟩)
  | prn => obtain ⟨r, rfl, rfl⟩ := h; exact .inr (.inr ⟨r, rfl, rfl, rfl⟩)
  | halt => subst h; exact .inl ⟨nofun, nofun, rfl⟩
  | ldi | jmp => obtain ⟨_, -, rfl⟩ := h; exact .inl ⟨nofun, nofun, rfl⟩
  | add | mul | cmp => obtain ⟨_, _, -, -, rfl⟩ := h; exact .inl ⟨nofun, nofun, rfl⟩
  | push => obtain ⟨_, _, -, -, rfl⟩ := h; exact .inl ⟨nofun, nofun, rfl⟩
  | pop => obtain ⟨_, -, -, rfl⟩ := h; exact .inl ⟨nofun, nofun, rfl⟩
  | call => obtain ⟨_, _, -, -, -, rfl⟩ := h; exact .inl ⟨nofun, nofun, rfl⟩
  | ret => obtain ⟨-, rfl⟩ := h; exact .inl ⟨nofun, nofun, rfl⟩
  | jeq | jne => obtain ⟨_, -, rfl⟩ := h; exact .inl ⟨nofun, nofun, by split <;> rfl⟩

/-- Settles O37: what does not commit leaves the output alone, and of the effects only the two prints add to it. -/
theorem outputComesOnlyFromPrints : Obligations.OutputComesOnlyFromPrints := by
  intro s t hstep
  rcases step_commits_or_keeps hstep with rfl | ⟨e, rfl⟩ | ⟨i, w, hi, hw, rfl⟩
  · exact .inl rfl
  · exact .inl rfl
  · rcases hw.output_cases with ⟨-, -, hout⟩ | ⟨rfl, hout⟩ | ⟨r, rfl, -, hout⟩
    · exact .inl hout
    · exact .inr (.inl ⟨hi, hout⟩)
    · exact .inr (.inr ⟨r, hi, hout⟩)

/-! ### The event a snapshot shows -/

theorem event_snapshot_printConst (s w : State) : (snapshot .printConst s w).event = some .printConst := if_pos rfl

/-- The event of PRN is read from the registers after it. -/
theorem event_snapshot_prn (s w : State) (r : RegIdx) :
    (snapshot (.prn (regByte r)) s w).event = some (.printReg (w.reg r)) := by
  have hreg : w.regs.toList.getD (regByte r).toNat 0#8 = w.reg r := by
    simp [regByte_toNat, State.reg]
  rw [← hreg]
  rfl

theorem event_snapshot_of_ne {i : Instr} (s w : State) (hconst : i.op ≠ .printConst) (hprn : i.op ≠ .prn) :
    (snapshot i s w).event = none :=
  (if_neg (Op.opcode_injective.ne hconst)).trans (if_neg (Op.opcode_injective.ne hprn))

/-- An effect emits exactly the event its snapshot shows, if any. -/
theorem Effect.output_eq_append_event {i : Instr} {s w : State} (h : Effect i s w) :
    w.output = s.output ++ (snapshot i s w).event.toList := by
  rcases h.output_cases with ⟨hconst, hprn, hout⟩ | ⟨rfl, hout⟩ | ⟨r, rfl, hregs, hout⟩
  · rw [event_snapshot_of_ne s w hconst hprn, hout, Option.toList_none, List.append_nil]
  · rw [event_snapshot_printConst, hout, Option.toList_some]
  · rw [event_snapshot_prn, hout, Option.toList_some, State.reg_congr s w hregs]

/-- A commit adds to the output and to the events of the trace alike (R82, R83). -/
theorem State.OutputMatchesTrace.commit {i : Instr} {s w : State} (hs : s.OutputMatchesTrace) (hw : Effect i s w) :
    (commit i s w).OutputMatchesTrace :=
  calc w.output = s.trace.filterMap Snapshot.event ++ (snapshot i s w).event.toList := by
        rw [hw.output_eq_append_event, ← hs]
    _ = (s.trace ++ [snapshot i s w]).filterMap Snapshot.event := by simp [List.filterMap_eq_flatMap_toList]

/-- Settles O40: what does not commit leaves both records alone, and a commit adds to them alike. -/
theorem stepKeepsOutputMatchingTheTrace : Obligations.StepKeepsOutputMatchingTheTrace := by
  intro s t hs hstep
  rcases step_commits_or_keeps hstep with rfl | ⟨e, rfl⟩ | ⟨i, w, -, hw, rfl⟩
  · exact hs
  · exact hs
  · exact hs.commit hw

/-! ### The bytes a snapshot shows -/

/-- The bytes a read from address `a` begins with are those the memory holds from there, all inside 0..255. -/
theorem holdsBytes_of_isPrefix {s : State} {a n : Nat} {bs : List Byte} (h : bs <+: s.mem.bytesFrom a n) :
    HoldsBytes s a bs := by
  intro k v hk
  obtain ⟨hlt, -⟩ := List.getElem?_eq_some_iff.mp hk
  have hlen := h.length_le
  rw [Memory.length_bytesFrom] at hlen
  have hin : a + k < 256 := by omega
  have hcell : a + k = (BitVec.ofNat 8 (a + k)).toNat := by rw [BitVec.toNat_ofNat, Nat.mod_eq_of_lt hin]
  have hread := Memory.getElem?_bytesFrom s.mem (n := n) (by omega) hcell
  rw [List.prefix_iff_getElem?.mp h k hlt, ← List.getElem?_eq_getElem hlt, hk] at hread
  exact ⟨hin, (Option.some.inj hread).symm⟩

/-- The memory of a core that runs an instruction holds its encoding from pc on. -/
theorem holdsBytes_encode_of_runs {s : State} {i : Instr} (hi : Runs s i) : HoldsBytes s s.pc.toNat (encode i) := by
  obtain ⟨-, rest, hdecode⟩ := hi
  exact holdsBytes_of_isPrefix ⟨rest, (encodeOfDecodeIsTheBytesRead _ _ _ hdecode).symm⟩

/-- Settles O17: a step that traces committed the instruction it fetched, and its snapshot is the one added. -/
theorem traceSnapshotShowsTheFetchedBytes : Obligations.TraceSnapshotShowsTheFetchedBytes := by
  intro s t x hstep htrace
  have hne : t.trace ≠ s.trace := by simp [htrace]
  rcases step_commits_or_keeps hstep with rfl | ⟨e, rfl⟩ | ⟨i, w, hi, -, rfl⟩
  · exact absurd rfl hne
  · exact absurd rfl hne
  · obtain rfl : snapshot i s w = x := List.singleton_inj.mp (List.append_cancel_left htrace)
    exact ⟨rfl, holdsBytes_encode_of_runs hi, length_operands i, rfl, rfl⟩

end Sys2Proof.Machine
end

section
/-! The errors a step or a load can latch: UnsupportedAluOp is none of them (60_exceptions.md R74). -/

namespace Sys2Proof.Machine

theorem Raises.ne_unsupportedAluOp {i : Instr} {s : State} {e : MachineError} (h : Raises i s e) (name : Op) :
    e ≠ .unsupportedAluOp name := by
  rcases h with ⟨_, -, rfl⟩ | rfl | rfl | ⟨_, -, -, rfl⟩ <;> nofun

theorem fetchError_ne_unsupportedAluOp (pc : PcWord) (d : DecodeError) (name : Op) :
    fetchError pc d ≠ .unsupportedAluOp name := by
  cases d <;> nofun

/-- A step that leaves UnsupportedAluOp in `ERR` found it there: a commit keeps `ERR`, and the errors raised are other kinds. -/
theorem err_eq_unsupportedAluOp_of_step {s t : State} {name : Op} (h : step s = .next t)
    (ht : t.err = some (.unsupportedAluOp name)) : s.err = some (.unsupportedAluOp name) := by
  cases hrun : s.halted with
  | true => exact eq_of_step_halted hrun h ▸ ht
  | false =>
    rcases step_cases hrun h with ⟨i, w, -, hw, rfl⟩ | ⟨i, e, -, he, rfl⟩ | ⟨d, -, rfl⟩
    · exact hw.err_eq.symm.trans ht
    · exact absurd (Option.some.inj ht) (he.ne_unsupportedAluOp name)
    · exact absurd (Option.some.inj ht) (fetchError_ne_unsupportedAluOp s.pc d name)

/-- The same of a load, whose one error is ProgramTooLarge (20_memory.md R31). -/
theorem err_eq_unsupportedAluOp_of_load {bytes : List Byte} {s t : State} {name : Op} (h : load bytes s = .next t)
    (ht : t.err = some (.unsupportedAluOp name)) : s.err = some (.unsupportedAluOp name) := by
  obtain ⟨-, ⟨-, rfl⟩ | ⟨-, rfl⟩⟩ := load_cases h
  · exact ht
  · cases ht

/-- Settles O41: what a step or a load leaves as UnsupportedAluOp was there before. -/
theorem unsupportedAluOpIsNeverRaised : Obligations.UnsupportedAluOpIsNeverRaised := by
  rintro s t name hs (hstep | ⟨bytes, hload⟩)
  · exact ⟨fun ht => hs (err_eq_unsupportedAluOp_of_step hstep ht), rfl⟩
  · exact ⟨fun ht => hs (err_eq_unsupportedAluOp_of_load hload ht), rfl⟩

end Sys2Proof.Machine
end

section
/-! The cells below the stack (70_reset_and_hazards.md section 4): no step or run whose SP stays above them changes them. -/

namespace Sys2Proof.Machine

/-- A step that ends with SP above a cell leaves the cell as it was: the one cell it can change is the one at its new SP. -/
theorem read_eq_of_step_of_lt_sp {s t : State} {c : Byte} (hs : s.Inv) (hstep : step s = .next t)
    (hc : c.toNat < t.sp.toNat) : t.mem.read c = s.mem.read c := by
  by_contra hne
  obtain ⟨-, -, hsp⟩ := memoryChangesOnlyAtThePushedCell s t c hs hstep hne
  exact hc.ne (congrArg BitVec.toNat hsp.symm)

/-- Settles O43, by induction on the number of steps: the first step leaves the cell alone, and the run from there keeps both
the invariant and the bound on SP. -/
theorem cellsBelowTheStackAreSafe : Obligations.CellsBelowTheStackAreSafe := by
  intro L k
  induction k with
  | zero =>
    intro s t _ _ hrun c _
    obtain rfl := Host.Outcome.next.inj hrun
    rfl
  | succ k ih =>
    intro s t hs hsp hrun c hc
    obtain ⟨u, hstep, hrest⟩ := core_run_succ.mp hrun
    have hlater : ∀ (j : Nat) (v : State), j ≤ k → core.run j u = .next v → L ≤ v.sp.toNat := fun j v hj hv =>
      hsp (j + 1) v (Nat.succ_le_succ hj) (core_run_succ.mpr ⟨u, hstep, hv⟩)
    have hfirst : L ≤ u.sp.toNat := hlater 0 u (Nat.zero_le k) rfl
    calc t.mem.read c = u.mem.read c := ih u t (stepKeepsTheInvariant s u hs hstep) hlater hrest c hc
      _ = s.mem.read c := read_eq_of_step_of_lt_sp hs hstep (hc.trans_le hfirst)

end Sys2Proof.Machine
end

section
/-! The step port is total, and the output port agrees with the trace at reset. -/

namespace Sys2Proof.Machine

/-- Settles O5: a halted core is its own next state, a failed fetch takes its error, and every instruction commits or takes
an error (30_encoding.md section 6). -/
theorem everyStepAnswersANextState : Obligations.EveryStepAnswersANextState := exists_step_eq_next

/-- Settles O39: both records are empty at reset, and an empty trace shows no event. -/
theorem outputMatchesTheTraceAtReset : Obligations.OutputMatchesTheTraceAtReset :=
  show [] = [].filterMap Snapshot.event from List.filterMap_nil.symm

end Sys2Proof.Machine
end
